-- ==== Sys2Proof/Word.lean ====
section
/-! DEFINITION. The word types: every datum of this machine is one byte (00_scope.md R13), and a general register is
named by an index 0 to 7 (10_state.md R20). -/

namespace Sys2Proof

/-- A byte: an unsigned number 0 to 255 (R13). Registers, addresses, operands and memory cells all have this width. -/
abbrev Byte := BitVec 8

/-- The index of a general register, `R0` to `R7` (R20). -/
abbrev RegIx := Fin 8

end Sys2Proof
end

