-- ==== Sys2Proof/Syntax.lean ====
section
/-! DEFINITION. The instructions: one constructor per row of spec/opcode_table.json (30_encoding.md R75, R78).

An operand is the operand BYTE of the instruction. A register operand above 7 is a legal encoding that faults in
EXECUTE (R76), so the byte is kept as it is and `Reg(k)` is applied by the meaning. -/

namespace Sys2Proof

/-- The 21 instructions of R78. `a` is the first operand byte, `b` the second. -/
inductive Instr where
  /-- `HLT`, halt (R100). -/
  | hlt
  /-- `IRET`, return from interrupt (R157). -/
  | iret
  /-- `PUSH ra` (R135). -/
  | push (a : Byte)
  /-- `POP rd` (R136). -/
  | pop (a : Byte)
  /-- `PRN ra`, print as a decimal number (R155). -/
  | prn (a : Byte)
  /-- `PRA ra`, print as a character (R156). -/
  | pra (a : Byte)
  /-- `JMP ra` (R145). -/
  | jmp (a : Byte)
  /-- `JEQ ra`, jump if EQ is set (R146). -/
  | jeq (a : Byte)
  /-- `JNE ra`, jump if EQ is clear (R147). -/
  | jne (a : Byte)
  /-- `INC ra` (R119). -/
  | inc (a : Byte)
  /-- `DEC ra` (R120). -/
  | dec (a : Byte)
  /-- `LDI rd, imm` (R130). -/
  | ldi (a imm : Byte)
  /-- `ADD ra, rb` (R111). -/
  | add (a b : Byte)
  /-- `SUB ra, rb` (R112). -/
  | sub (a b : Byte)
  /-- `MUL ra, rb` (R113). -/
  | mul (a b : Byte)
  /-- `DIV ra, rb` (R114). -/
  | div (a b : Byte)
  /-- `CMP ra, rb` (R121). -/
  | cmp (a b : Byte)
  /-- `AND ra, rb` (R115). -/
  | and (a b : Byte)
  /-- `OR ra, rb` (R116). -/
  | or (a b : Byte)
  /-- `XOR ra, rb` (R117). -/
  | xor (a b : Byte)
  /-- `SHL ra, rb` (R118). -/
  | shl (a b : Byte)
  deriving DecidableEq, Repr

end Sys2Proof
end

