-- ==== Sys2Proof/Decode.lean ====
section
/-! DEFINITION. The opcode mapping, the decoder and the encoder (30_encoding.md R70 to R80). The mapping stands in ONE
table, `Op.code`, so that it can be replaced (91_not_in_source.md N1): the decoder searches it and the encoder reads it.
Width and "sets PC" are read from the opcode byte's bits, as DECODE does (R71, R94), never from the operation. -/

namespace Sys2Proof

/-- The 21 operations of the mapping (R78). -/
inductive Op where
  | hlt | iret
  | push | pop | prn | pra | jmp | jeq | jne | inc | dec
  | ldi | add | sub | mul | div | cmp | and | or | xor | shl
  deriving DecidableEq, Repr

/-- The opcode mapping of R78: the byte of each operation. -/
def Op.code : Op → Byte
  | .hlt => 0x01#8
  | .iret => 0x13#8
  | .push => 0x45#8
  | .pop => 0x46#8
  | .prn => 0x47#8
  | .pra => 0x48#8
  | .jmp => 0x54#8
  | .jeq => 0x55#8
  | .jne => 0x56#8
  | .inc => 0x65#8
  | .dec => 0x66#8
  | .ldi => 0x82#8
  | .add => 0xA0#8
  | .sub => 0xA1#8
  | .mul => 0xA2#8
  | .div => 0xA3#8
  | .cmp => 0xA7#8
  | .and => 0xA8#8
  | .or => 0xAA#8
  | .xor => 0xAB#8
  | .shl => 0xAC#8

/-- Every operation of the mapping, in the table's order. -/
def Op.all : List Op :=
  [.hlt, .iret, .push, .pop, .prn, .pra, .jmp, .jeq, .jne, .inc, .dec,
   .ldi, .add, .sub, .mul, .div, .cmp, .and, .or, .xor, .shl]

/-- EXECUTE's lookup: the operation selected by the whole opcode byte (R78), or none for an illegal byte (R80). -/
def lookupOp (ir : Byte) : Option Op := Op.all.find? (fun o => o.code == ir)

/-- `WIDTH`: bits 7:6 of the opcode byte plus 1 (R71, R73, R94). -/
def opWidth (ir : Byte) : Nat := (ir.extractLsb' 6 2).toNat + 1

/-- `SETS_PC`: bit 4 of the opcode byte (R71, R94). -/
def opSetsPc (ir : Byte) : Bool := ir.getLsbD 4

/-- The instruction of an operation and the two operand bytes; an operand byte the format lacks is dropped (R72, R75). -/
def Op.instr (o : Op) (a b : Byte) : Instr :=
  match o with
  | .hlt => .hlt
  | .iret => .iret
  | .push => .push a
  | .pop => .pop a
  | .prn => .prn a
  | .pra => .pra a
  | .jmp => .jmp a
  | .jeq => .jeq a
  | .jne => .jne a
  | .inc => .inc a
  | .dec => .dec a
  | .ldi => .ldi a b
  | .add => .add a b
  | .sub => .sub a b
  | .mul => .mul a b
  | .div => .div a b
  | .cmp => .cmp a b
  | .and => .and a b
  | .or => .or a b
  | .xor => .xor a b
  | .shl => .shl a b

/-- Why bytes do not decode. -/
inductive DecodeError where
  /-- The opcode byte is not in the mapping (R80). -/
  | invalidOpcode (ir : Byte)
  /-- The list ends inside the instruction (cannot happen in a fetch, which always reads three bytes). -/
  | truncated
  deriving DecidableEq, Repr

/-- Decode one instruction from a list of bytes, opcode first (R53, R70), answering it with the bytes left over. -/
def decode : List Byte → Except DecodeError (Instr × List Byte)
  | [] => .error .truncated
  | ir :: rest =>
    match lookupOp ir with
    | none => .error (.invalidOpcode ir)
    | some o =>
      match opWidth ir, rest with
      | 1, rest => .ok (o.instr 0#8 0#8, rest)
      | 2, a :: rest => .ok (o.instr a 0#8, rest)
      | 3, a :: b :: rest => .ok (o.instr a b, rest)
      | 4, _ => .error (.invalidOpcode ir)
      | _, _ => .error .truncated

/-- The operation of an instruction. -/
def Instr.op : Instr → Op
  | .hlt => .hlt
  | .iret => .iret
  | .push _ => .push
  | .pop _ => .pop
  | .prn _ => .prn
  | .pra _ => .pra
  | .jmp _ => .jmp
  | .jeq _ => .jeq
  | .jne _ => .jne
  | .inc _ => .inc
  | .dec _ => .dec
  | .ldi _ _ => .ldi
  | .add _ _ => .add
  | .sub _ _ => .sub
  | .mul _ _ => .mul
  | .div _ _ => .div
  | .cmp _ _ => .cmp
  | .and _ _ => .and
  | .or _ _ => .or
  | .xor _ _ => .xor
  | .shl _ _ => .shl

/-- The operand bytes of an instruction, in the order they follow the opcode (R75). -/
def Instr.operands : Instr → List Byte
  | .hlt => []
  | .iret => []
  | .push a => [a]
  | .pop a => [a]
  | .prn a => [a]
  | .pra a => [a]
  | .jmp a => [a]
  | .jeq a => [a]
  | .jne a => [a]
  | .inc a => [a]
  | .dec a => [a]
  | .ldi a imm => [a, imm]
  | .add a b => [a, b]
  | .sub a b => [a, b]
  | .mul a b => [a, b]
  | .div a b => [a, b]
  | .cmp a b => [a, b]
  | .and a b => [a, b]
  | .or a b => [a, b]
  | .xor a b => [a, b]
  | .shl a b => [a, b]

/-- The operand bytes that are register indices: all but the immediate of `LDI` (R74, R75). -/
def Instr.regOperands (i : Instr) : List Byte := if i.op = .ldi then i.operands.take 1 else i.operands

/-- The bytes of an instruction, opcode first at the lowest address (R53, R70). -/
def encode (i : Instr) : List Byte := i.op.code :: i.operands

/-- The three bytes at ascending addresses of an instruction whose bits are `w`, bit 0 the least significant bit of the
first byte; the bits from `nbits` on are 0. Three bytes are the longest instruction (R70). -/
def tableBytes (nbits w : Nat) : List Byte :=
  [BitVec.ofNat 8 (w % 2 ^ nbits), BitVec.ofNat 8 (w % 2 ^ nbits / 256), BitVec.ofNat 8 (w % 2 ^ nbits / 65536)]

/-- What the decoder reads from an instruction given as one number (the host's question about a table row). -/
def decodeTableWord (nbits w : Nat) : Option Instr :=
  match decode (tableBytes nbits w) with
  | .ok (i, _) => some i
  | .error _ => none

end Sys2Proof
end

