-- ==== Sys2Proof/Config.lean ====
section
/-! DEFINITION. What is fixed for a launch of the machine, and the free values: inputs of the core that the spec puts
under no law (00_scope.md R7, R8, R10). -/

namespace Sys2Proof

/-- The launch parameter `ADDR_OVERFLOW` (R8, R56, D6): what address arithmetic does at the ends of memory. -/
inductive AddrOverflow where
  /-- The default: addresses wrap modulo 256. -/
  | wrap
  /-- The stricter setting: leaving 0x00 to 0xFF raises `AddressOverflow`. -/
  | fault
  deriving DecidableEq, Repr

/-- The launch parameter `EXT_IRQ` (R8, R10, R181, D10): what the external sources request at a poll for which the state
lists no input. -/
inductive ExtIrqParam where
  /-- The default: `EXT_IRQ` is constantly 0. -/
  | zero
  /-- Any pattern of requests: `Config.freeExtIrq`. -/
  | any
  deriving DecidableEq, Repr

/-- `TIMER_PERIOD`, one second (R7), in the model's unit of wall-clock time, the microsecond.
DESIGN CHOICE (safe, log entry 5): the unit. -/
def Config.timerPeriod : Nat := 1000000

/-- FREE VALUE (log entry 4): `NOW`, the wall-clock time at the poll with this number (R183), where the state lists no
input for it. No body: nothing can be proved of it, so `TIMER_FIRE` is a free draw (D9). -/
opaque Config.freeNow : Nat → Nat

/-- FREE VALUE (log entry 4): `EXT_IRQ` at the poll with this number (R181, D10), where the state lists no input for it and
the launch parameter `EXT_IRQ` is `any`. -/
opaque Config.freeExtIrq : Nat → Byte

/-- FREE VALUE (log entry 2): what the general register with this index (second argument) holds after an `AddressOverflow`
raised when this many polls (first argument) had been taken: R172 leaves it unspecified. -/
opaque Config.freeRegister : Nat → Nat → Byte

/-- FREE VALUE (log entry 2): what `FL` holds after such an `AddressOverflow` (R172). -/
opaque Config.freeFlags : Nat → Byte

/-- FREE VALUE (log entry 2): what the memory cell at this address (second argument) holds after such an `AddressOverflow`
(R172). -/
opaque Config.freeCell : Nat → Nat → Byte

end Sys2Proof
end

