-- ==== Sys2Proof/Machine/State.lean ====
section
/-! DEFINITION. The state of the machine as plain data, its state after reset, and the ways a step can stop
(10_state.md R20 to R40, 60_exceptions.md R170 to R172). -/

namespace Sys2Proof.Machine

/-- An event of the console stream `OUT` (00_scope.md R12). -/
inductive OutEvent where
  /-- `Num(v)`: `PRN` printed `v` as a decimal number (R155). -/
  | num (v : Byte)
  /-- `Chr(v)`: `PRA` printed the character with code point `v` (R156). -/
  | chr (v : Byte)
  deriving DecidableEq, Repr

/-- What `FAULT` records (R31): the four faults of R170 with their information. -/
inductive FaultRecord where
  /-- Code 1, `InvalidOpcode(IR, PC)` (R96). -/
  | invalidOpcode (opcode pc : Byte)
  /-- Code 2, `DivideByZero(PC)` (R114). -/
  | divideByZero (pc : Byte)
  /-- Code 3, `RegisterIndexFault(k, PC)` (R76). -/
  | registerIndex (operand pc : Byte)
  /-- Code 4, `AddressOverflow`: the address being stepped, and `PC` (R56, R172); only under `ADDR_OVERFLOW = fault`. -/
  | addressOverflow (stepped pc : Byte)
  deriving DecidableEq, Repr

/-- What the environment supplies at one poll (R10): the wall-clock time `NOW`, from which R183 computes `TIMER_FIRE`,
and the request byte `EXT_IRQ` (R181). -/
structure PollInput where
  now : Nat
  extIrq : Byte := 0x00#8
  deriving DecidableEq, Repr

/-- The state of the machine (R20 to R40). The latches of R34 are local to the step, as R34 allows. -/
structure State where
  /-- `R0` to `R7`; `R5` is `IM`, `R6` is `IS`, `R7` is `SP` (R20, R21). -/
  regs : Vector Byte 8
  /-- `PC`: the address of the next instruction to fetch (R25). -/
  pc : Byte
  /-- `FL`: bit 2 `LT`, bit 1 `GT`, bit 0 `EQ`; bits 7 to 3 are carried (R26). -/
  fl : Byte
  /-- `IE`: the global interrupt enable (R27). -/
  ie : Bool
  /-- `HALTED` (R30). -/
  halted : Bool
  /-- `FAULT` (R31). -/
  fault : Option FaultRecord
  /-- `TIMER_LAST`: the time of the last fired timer interrupt (R32). -/
  timerLast : Nat
  /-- Memory (R29): strictly rising addresses, no entry 0x00; an unlisted cell reads 0x00 (R40). -/
  mem : List Host.Cell
  /-- `OUT`: the console events, oldest first (R12). -/
  out : List OutEvent
  /-- The launch parameter `ADDR_OVERFLOW` (R8, R56): no step changes it. -/
  addrOverflow : AddrOverflow
  /-- The launch parameter `EXT_IRQ` (R8, D10), for the polls that `inputs` does not list: no step changes it. -/
  extIrqParam : ExtIrqParam
  /-- The MODEL's own field (log entry 4): the inputs of the coming polls, the next one first. -/
  inputs : List PollInput
  /-- The MODEL's own field (log entry 4): how many polls have been taken; it indexes the free values of `Config`. -/
  polls : Nat
  deriving DecidableEq, Repr

/-- Why a step has no next state. -/
inductive Fault where
  /-- Raised by `Sys2Proof.Machine.runCycle` at the top of a cycle when `FAULT` is already recorded: the core takes no
  cycle (R91, R101). Safe. -/
  | faulted (record : FaultRecord)
  deriving DecidableEq, Repr

/-- Why the model gives no meaning. -/
inductive Refusal where
  /-- Raised by an arm of `exec` whose instruction has no meaning yet (no arm raises it now). Safe. -/
  | notModelled (mnemonic : String)
  deriving DecidableEq, Repr

/-- The machine right after reset, before an image is loaded (R40, R220). `R7` is `SP` = 0xF4, `IE` is 1, everything else
is zero, none or empty. `timerLast` is the time of reset, from which the model counts time (log entry 5). -/
def State.reset : State where
  regs := #v[0x00#8, 0x00#8, 0x00#8, 0x00#8, 0x00#8, 0x00#8, 0x00#8, 0xF4#8]
  pc := 0x00#8
  fl := 0x00#8
  ie := true
  halted := false
  fault := none
  timerLast := 0
  mem := []
  out := []
  addrOverflow := .wrap
  extIrqParam := .zero
  inputs := []
  polls := 0

end Sys2Proof.Machine
end

