-- ==== Sys2Proof/Machine/Ops.lean ====
section
/-! DEFINITION. The named operations every meaning is built from: memory (20_memory.md R50, R51), registers (10_state.md
R20), address arithmetic (R56), Push and Pop (R60, R61), raising a fault (60_exceptions.md R171), ADVANCE
(40_execution_cycle.md R97, R98), interrupt entry (R186) and the return from it (45_system_io.md R157). -/

namespace Sys2Proof.Machine

/-! ### Memory -/

/-- What a cell the list does not name holds: 0x00 (R40, R220, D8). -/
def Memory.unlisted : Byte := 0x00#8

/-- `MemRead(addr, 1)` (R50) on the list of cells. -/
def Memory.read : List Host.Cell → Nat → Byte
  | [], _ => Memory.unlisted
  | (k, v) :: m, a => if k = a then v else Memory.read m a

/-- Put a cell into its place by rising address. -/
def Memory.insert : List Host.Cell → Nat → Byte → List Host.Cell
  | [], a, v => [(a, v)]
  | (k, w) :: m, a, v => if k < a then (k, w) :: Memory.insert m a v else (a, v) :: (k, w) :: m

/-- `MemWrite(addr, 1, v)` (R51) on the list of cells, in canonical form: writing what an unlisted cell holds takes the
entry away. -/
def Memory.write (m : List Host.Cell) (a : Nat) (v : Byte) : List Host.Cell :=
  if v = Memory.unlisted then m.filter (fun c => c.1 != a)
  else Memory.insert (m.filter (fun c => c.1 != a)) a v

/-- Addresses rise strictly from `lo` and are below 256, and no entry equals what an unlisted cell holds. -/
def Memory.wfFrom : Nat → List Host.Cell → Bool
  | _, [] => true
  | lo, (k, v) :: m => decide (lo ≤ k) && decide (k < 256) && (v != Memory.unlisted) && Memory.wfFrom (k + 1) m

/-- The canonical list of `n` cells from address `a` upward whose contents a function gives. -/
def Memory.tabulate (f : Nat → Byte) : Nat → Nat → List Host.Cell
  | _, 0 => []
  | a, n + 1 =>
    if f a = Memory.unlisted then Memory.tabulate f (a + 1) n else (a, f a) :: Memory.tabulate f (a + 1) n

/-- The canonical form of memory: equal memories are equal lists. -/
def Memory.wf (m : List Host.Cell) : Bool := Memory.wfFrom 0 m

/-- `MemRead(addr, 1)`: the byte of the cell at a byte address (R50). -/
def State.load (s : State) (a : Byte) : Byte := Memory.read s.mem a.toNat

/-- `MemWrite(addr, 1, v)`: a direct overwrite of one cell (R51). -/
def State.store (s : State) (a v : Byte) : State := { s with mem := Memory.write s.mem a.toNat v }

/-! ### Registers and control state -/

/-- `IM_INDEX`: the Interrupt Mask is register 5 (R7, R21). -/
def rIM : RegIx := 5

/-- `IS_INDEX`: the Interrupt Status is register 6 (R7, R21). -/
def rIS : RegIx := 6

/-- `SP_INDEX`: the Stack Pointer is register 7 (R7, R21). -/
def rSP : RegIx := 7

/-- `x[i]`: read a general register (R14, R20). -/
def State.reg (s : State) (r : RegIx) : Byte := s.regs[r.val]

/-- `x[i] <- v`: write a general register (R14, R20). -/
def State.setReg (s : State) (r : RegIx) (v : Byte) : State := { s with regs := s.regs.set r.val v }

/-- `PC <- v` (R25). -/
def State.setPc (s : State) (v : Byte) : State := { s with pc := v }

/-- `FL <- v`, all eight bits (R26). -/
def State.setFl (s : State) (v : Byte) : State := { s with fl := v }

/-- `IE <- b` (R27). -/
def State.setIe (s : State) (b : Bool) : State := { s with ie := b }

/-- `HALTED <- 1` (R30). -/
def State.setHalted (s : State) : State := { s with halted := true }

/-- `FAULT <- F` (R31). -/
def State.setFault (s : State) (f : FaultRecord) : State := { s with fault := some f }

/-- `TIMER_LAST <- t` (R32). -/
def State.setTimerLast (s : State) (t : Nat) : State := { s with timerLast := t }

/-- `Emit(e)`: append an event to `OUT` (R14). -/
def State.emit (s : State) (e : OutEvent) : State := { s with out := s.out ++ [e] }

/-! ### Faults -/

/-- `raise F(info)` for a precise fault, codes 1 to 3: `FAULT` is set and nothing else changes; no ADVANCE (R171). -/
def raise (f : FaultRecord) (s : State) : Host.Outcome State Fault Refusal := .next (s.setFault f)

/-- `raise AddressOverflow(a, PC)` (code 4): `FAULT` is set and `PC` stays (R171), and what took effect before the raise stays
(R172): `OUT`, `HALTED`, `IE`. Registers, `FL` and memory are unspecified (R172): free values (log entry 2). -/
def overflow (a : Byte) (s : State) : State :=
  { s with
    fault := some (.addressOverflow a s.pc)
    regs := Vector.ofFn fun r => Config.freeRegister s.polls r.val
    fl := Config.freeFlags s.polls
    mem := Memory.tabulate (Config.freeCell s.polls) 0 256 }

/-- The fault codes of R170. -/
def FaultRecord.code : FaultRecord → Nat
  | .invalidOpcode _ _ => 1
  | .divideByZero _ => 2
  | .registerIndex _ _ => 3
  | .addressOverflow _ _ => 4

/-- The address `PC` that a fault records (R170). -/
def FaultRecord.pc : FaultRecord → Byte
  | .invalidOpcode _ pc => pc
  | .divideByZero pc => pc
  | .registerIndex _ pc => pc
  | .addressOverflow _ pc => pc

/-- Go on with the state of a part of the cycle, unless that part raised `AddressOverflow` (`.error` with the state the raise
leaves): then nothing further of the cycle happens (R171). -/
def andThen (r : Except State State) (f : State → Host.Outcome State Fault Refusal) :
    Host.Outcome State Fault Refusal :=
  match r with
  | .ok s => f s
  | .error t => .next t

/-! ### Address arithmetic, Push and Pop -/

/-- `inc8(a, k)` (R56): the sum modulo 256; under `ADDR_OVERFLOW = fault` it raises when the sum exceeds 255, and the error is
the state the raise leaves. -/
def inc8 (s : State) (a : Byte) (k : Nat) : Except State Byte :=
  if s.addrOverflow = .fault ∧ 255 < a.toNat + k then .error (overflow a s)
  else .ok (a + BitVec.ofNat 8 k)

/-- `dec8(a, k)` (R56): the difference modulo 256; under `ADDR_OVERFLOW = fault` it raises when `k` exceeds `a`. -/
def dec8 (s : State) (a : Byte) (k : Nat) : Except State Byte :=
  if s.addrOverflow = .fault ∧ a.toNat < k then .error (overflow a s)
  else .ok (a - BitVec.ofNat 8 k)

/-- `Push(v)` (R60): decrement `SP`, then write at the new `SP`. -/
def push (v : Byte) (s : State) : Except State State :=
  match dec8 s (s.reg rSP) 1 with
  | .error t => .error t
  | .ok sp => .ok ((s.setReg rSP sp).store sp v)

/-- `Pop()` (R61): read at `SP`, then increment `SP`. -/
def pop (s : State) : Except State (Byte × State) :=
  match inc8 s (s.reg rSP) 1 with
  | .error t => .error t
  | .ok sp => .ok (s.load (s.reg rSP), s.setReg rSP sp)

/-- Push the values of a list, the first one first. -/
def pushAll : List Byte → State → Except State State
  | [], s => .ok s
  | v :: vs, s =>
    match push v s with
    | .error t => .error t
    | .ok t => pushAll vs t

/-- `x[r] <- Pop()` for each register of a list, the first one first. -/
def popRegs : List RegIx → State → Except State State
  | [], s => .ok s
  | r :: rs, s =>
    match pop s with
    | .error t => .error t
    | .ok (v, t) => popRegs rs (t.setReg r v)

/-! ### ADVANCE -/

/-- ADVANCE (R98): with `SETS_PC` clear, `PC` moves past the instruction; with it set, nothing changes. -/
def advance (width : Nat) (setsPc : Bool) (s : State) : Host.Outcome State Fault Refusal :=
  if setsPc then .next s
  else
    match inc8 s s.pc width with
    | .error t => .next t
    | .ok pc => .next (s.setPc pc)

/-- ADVANCE with `WIDTH` and `SETS_PC` as DECODE read them from the operation's opcode byte (R94, R98). -/
def finish (o : Op) (s : State) : Host.Outcome State Fault Refusal := advance (opWidth o.code) (opSetsPc o.code) s

/-- ADVANCE after the handler cleared `SETS_PC`: a conditional jump that is not taken (R97). -/
def fallThrough (o : Op) (s : State) : Host.Outcome State Fault Refusal := advance (opWidth o.code) false s

/-! ### Interrupt entry and return -/

/-- `VECTOR_BASE` (R7): the vector of line `i` is the cell 0xF8 + `i` (R57, R180). -/
def vectorAddr (i : RegIx) : Byte := 0xF8#8 + BitVec.ofNat 8 i.val

/-- `1 << i`, the bit of interrupt line `i` in `IM` and `IS` (R180). -/
def lineBit (i : RegIx) : Byte := 1#8 <<< i.val

/-- Line `i` is pending and enabled: bit `i` of `masked = IM & IS` (R185). The mask bit is looked at first, so that a
masked line is seen to be masked whatever its pending bit is (R191). -/
def lineReady (s : State) (i : RegIx) : Bool := (s.reg rIM).getLsbD i.val && (s.reg rIS).getLsbD i.val

/-- The interrupt lines in ascending order (R185). -/
def lines : List RegIx := [0, 1, 2, 3, 4, 5, 6, 7]

/-- The line dispatch takes: the first set bit of `masked`, scanning in ascending order (R185). -/
def firstLine (s : State) : Option RegIx := lines.find? (lineReady s)

/-- What entry pushes, in push order: `PC`, `FL`, `R0` to `R6` (R186). -/
def frameBytes (s : State) : List Byte :=
  [s.pc, s.fl, s.reg 0, s.reg 1, s.reg 2, s.reg 3, s.reg 4, s.reg 5, s.reg 6]

/-- Entry's first part: `IE` is cleared, and the pending bit of the line (R186). -/
def acknowledge (i : RegIx) (s : State) : State := (s.setIe false).setReg rIS (s.reg rIS &&& ~~~ lineBit i)

/-- Interrupt entry for line `i` (R186): acknowledge, push the frame, then load `PC` from the vector, read after the
pushes. The ONE operation that enters a handler. -/
def interruptEntry (i : RegIx) (s : State) : Except State State :=
  match pushAll (frameBytes (acknowledge i s)) (acknowledge i s) with
  | .error t => .error t
  | .ok t => .ok (t.setPc (t.load (vectorAddr i)))

/-- Return from an interrupt (R157): pop `R6` down to `R0`, then `FL`, then `PC`, then set `IE`. -/
def returnFromInterrupt (s : State) : Except State State :=
  match popRegs [6, 5, 4, 3, 2, 1, 0] s with
  | .error t => .error t
  | .ok t =>
    match pop t with
    | .error t => .error t
    | .ok (fl, u) =>
      match pop (u.setFl fl) with
      | .error t => .error t
      | .ok (pc, v) => .ok ((v.setPc pc).setIe true)

end Sys2Proof.Machine
end

