-- ==== Sys2Proof/Machine/Flags.lean ====
section
/-! DEFINITION. The flags register `FL` (10_state.md R26) and the flag computation of `CMP` (41_alu.md R121). -/

namespace Sys2Proof.Machine

/-- `FL_LT`, bit 2 (R7, R26). -/
def flLT : Byte := 0b100#8

/-- `FL_GT`, bit 1 (R7, R26). -/
def flGT : Byte := 0b010#8

/-- `FL_EQ`, bit 0 (R7, R26). -/
def flEQ : Byte := 0b001#8

/-- The flag `CMP` sets for two unsigned bytes (R121). -/
def compareFlag (x y : Byte) : Byte := if x < y then flLT else if y < x then flGT else flEQ

/-- `FL` after `CMP`: LT, GT and EQ are cleared, then exactly one is set; bits 7 to 3 are kept (R121). -/
def compareFlags (fl x y : Byte) : Byte := (fl &&& 0b11111000#8) ||| compareFlag x y

/-- `FL[0] = 1`, the only flag a jump tests (R146, R147). -/
def State.eqFlag (s : State) : Bool := s.fl.getLsbD 0

end Sys2Proof.Machine
end

