-- ==== Sys2Proof/Machine/Operands.lean ====
section
/-! DEFINITION. The operand forms (30_encoding.md R75 to R77): a register operand byte becomes a register index by
`Reg(k)`, which faults above 7; all checks come first, in the order `a` then `b`, before anything is read or written. -/

namespace Sys2Proof.Machine

/-- `Reg(k)` (R76): the register a byte 0 to 7 names. -/
def regIndex? (k : Byte) : Option RegIx := if h : k.toNat < 8 then some ⟨k.toNat, h⟩ else none

/-- One register operand (R75, R76): go on with its register, or raise `RegisterIndexFault(k, PC)`. -/
def withReg (a : Byte) (s : State) (f : RegIx → Host.Outcome State Fault Refusal) :
    Host.Outcome State Fault Refusal :=
  match regIndex? a with
  | none => raise (.registerIndex a s.pc) s
  | some r => f r

/-- Two register operands (R75, R77): `a` is checked before `b`. -/
def withRegs (a b : Byte) (s : State) (f : RegIx → RegIx → Host.Outcome State Fault Refusal) :
    Host.Outcome State Fault Refusal :=
  withReg a s fun ra => withReg b s fun rb => f ra rb

end Sys2Proof.Machine
end

