-- ==== Sys2Proof/Machine/Alu.lean ====
section
/-! DEFINITION. The ALU instructions (41_alu.md R110 to R126): pure operations over two register indices, or one. Every
value is an unsigned byte and every result is reduced modulo 256 (R122, R123). No meaning here touches memory, and only
`CMP` touches `FL`. -/

namespace Sys2Proof.Machine

/-- `SHL`: the product with 2 to the count, modulo 256; the count is the whole byte, not reduced (R118). -/
def shiftLeft (x n : Byte) : Byte := x <<< n.toNat

/-- The unsigned quotient rounded down (R114), for a divisor that is not 0. -/
def quotient (x y : Byte) : Byte := BitVec.ofNat 8 (x.toNat / y.toNat)

/-- The common shape of the two-register operations (R110): check both indices, read both registers, write the first,
advance. -/
def aluTwo (o : Op) (f : Byte → Byte → Byte) (a b : Byte) (s : State) : Host.Outcome State Fault Refusal :=
  withRegs a b s fun ra rb => finish o (s.setReg ra (f (s.reg ra) (s.reg rb)))

/-- The common shape of the unary operations (R110). -/
def aluOne (o : Op) (f : Byte → Byte) (a : Byte) (s : State) : Host.Outcome State Fault Refusal :=
  withReg a s fun ra => finish o (s.setReg ra (f (s.reg ra)))

/-- `ADD` (R111). -/
def execAdd (a b : Byte) (s : State) : Host.Outcome State Fault Refusal := aluTwo .add (fun x y => x + y) a b s

/-- `SUB` (R112). -/
def execSub (a b : Byte) (s : State) : Host.Outcome State Fault Refusal := aluTwo .sub (fun x y => x - y) a b s

/-- `MUL`: the low byte of the product (R113). -/
def execMul (a b : Byte) (s : State) : Host.Outcome State Fault Refusal := aluTwo .mul (fun x y => x * y) a b s

/-- `DIV` (R114): `DivideByZero(PC)` before any write when the divisor register holds 0; an index fault comes first
(R174). -/
def execDiv (a b : Byte) (s : State) : Host.Outcome State Fault Refusal :=
  withRegs a b s fun ra rb =>
    if s.reg rb = 0#8 then raise (.divideByZero s.pc) s
    else finish .div (s.setReg ra (quotient (s.reg ra) (s.reg rb)))

/-- `AND` (R115). -/
def execAnd (a b : Byte) (s : State) : Host.Outcome State Fault Refusal := aluTwo .and (fun x y => x &&& y) a b s

/-- `OR` (R116). -/
def execOr (a b : Byte) (s : State) : Host.Outcome State Fault Refusal := aluTwo .or (fun x y => x ||| y) a b s

/-- `XOR` (R117). -/
def execXor (a b : Byte) (s : State) : Host.Outcome State Fault Refusal := aluTwo .xor (fun x y => x ^^^ y) a b s

/-- `SHL` (R118). -/
def execShl (a b : Byte) (s : State) : Host.Outcome State Fault Refusal := aluTwo .shl shiftLeft a b s

/-- `INC` (R119). -/
def execInc (a : Byte) (s : State) : Host.Outcome State Fault Refusal := aluOne .inc (fun x => x + 1#8) a s

/-- `DEC` (R120). -/
def execDec (a : Byte) (s : State) : Host.Outcome State Fault Refusal := aluOne .dec (fun x => x - 1#8) a s

/-- `CMP` (R121): neither register is written, `FL` records the outcome. -/
def execCmp (a b : Byte) (s : State) : Host.Outcome State Fault Refusal :=
  withRegs a b s fun ra rb => finish .cmp (s.setFl (compareFlags s.fl (s.reg ra) (s.reg rb)))

end Sys2Proof.Machine
end

