-- ==== Sys2Proof/Machine/ControlFlow.lean ====
section
/-! DEFINITION. `JMP`, `JEQ`, `JNE` (44_control_flow.md R145 to R147). The target is the register's content; a conditional
jump that is not taken clears `SETS_PC` and falls through, advancing once (40_execution_cycle.md R97). -/

namespace Sys2Proof.Machine

/-- A jump with its condition: the index is checked whether or not the jump is taken (R146, R147). -/
def jumpWhen (o : Op) (taken : Bool) (a : Byte) (s : State) : Host.Outcome State Fault Refusal :=
  withReg a s fun ra => if taken then finish o (s.setPc (s.reg ra)) else fallThrough o s

/-- `JMP ra` (R145). -/
def execJmp (a : Byte) (s : State) : Host.Outcome State Fault Refusal := jumpWhen .jmp true a s

/-- `JEQ ra` (R146). -/
def execJeq (a : Byte) (s : State) : Host.Outcome State Fault Refusal := jumpWhen .jeq s.eqFlag a s

/-- `JNE ra` (R147). -/
def execJne (a : Byte) (s : State) : Host.Outcome State Fault Refusal := jumpWhen .jne (!s.eqFlag) a s

end Sys2Proof.Machine
end

