-- ==== Sys2Proof/Machine/LoadImmediate.lean ====
section
/-! DEFINITION. `LDI` (42_load_immediate.md R130). -/

namespace Sys2Proof.Machine

/-- `LDI rd, imm` (R130): the immediate byte as it stands (R74); only the first operand is a register index. -/
def execLdi (a imm : Byte) (s : State) : Host.Outcome State Fault Refusal :=
  withReg a s fun rd => finish .ldi (s.setReg rd imm)

end Sys2Proof.Machine
end

