-- ==== Sys2Proof/Machine/Stack.lean ====
section
/-! DEFINITION. `PUSH` and `POP` (43_stack.md R135, R136). -/

namespace Sys2Proof.Machine

/-- `PUSH ra` (R135): the register is read before `SP` moves, so `PUSH R7` stores the old `SP`. -/
def execPush (a : Byte) (s : State) : Host.Outcome State Fault Refusal :=
  withReg a s fun ra => andThen (push (s.reg ra) s) (finish .push)

/-- `POP rd` (R136): the register is written last, so `POP R7` leaves `SP` equal to the popped byte. -/
def execPop (a : Byte) (s : State) : Host.Outcome State Fault Refusal :=
  withReg a s fun rd => andThen (popRegs [rd] s) (finish .pop)

end Sys2Proof.Machine
end

