-- ==== Sys2Proof/Machine/SystemIo.lean ====
section
/-! DEFINITION. `PRN`, `PRA`, `IRET` (45_system_io.md R155 to R157), `HLT` (40_execution_cycle.md R100), and the text of
the console stream (00_scope.md R12). -/

namespace Sys2Proof.Machine

/-- `PRN ra` (R155): append `Num(x[ra])`. -/
def execPrn (a : Byte) (s : State) : Host.Outcome State Fault Refusal :=
  withReg a s fun ra => finish .prn (s.emit (.num (s.reg ra)))

/-- `PRA ra` (R156): append `Chr(x[ra])`. -/
def execPra (a : Byte) (s : State) : Host.Outcome State Fault Refusal :=
  withReg a s fun ra => finish .pra (s.emit (.chr (s.reg ra)))

/-- `IRET` (R157): no check that an interrupt is in progress; `PC` is the popped byte, so ADVANCE does nothing. -/
def execIret (s : State) : Host.Outcome State Fault Refusal := andThen (returnFromInterrupt s) (finish .iret)

/-- `HLT` (R100): the terminal flag is set and the cycle completes, ADVANCE included. -/
def execHlt (s : State) : Host.Outcome State Fault Refusal := finish .hlt s.setHalted

/-- The text of one event (R12, R155, R156): the unsigned decimal numeral and a newline, or the one character.
PRESUMED (log entry 7): the newline character is U+000A. -/
def OutEvent.text : OutEvent → List Char
  | .num v => Nat.toDigits 10 v.toNat ++ ['\n']
  | .chr v => [Char.ofNat v.toNat]

/-- The text of the console so far, as characters (R12). -/
def consoleText (s : State) : List Char := (s.out.map OutEvent.text).flatten

end Sys2Proof.Machine
end

