-- ==== Sys2Proof/Machine/Cycle.lean ====
section
/-! DEFINITION. One cycle of the execution loop (40_execution_cycle.md R90 to R102): the top-of-cycle check, POLL (timer,
external sources, dispatch: 60_exceptions.md R181, R183, R186), FETCH, DECODE, and the call of `exec`. Also the image
load (70_reset_and_hazards.md R222) and the placing of one instruction where the next cycle fetches. -/

namespace Sys2Proof.Machine

/-! ### POLL -/

/-- `EXT_IRQ` at a poll for which the state lists no input: constantly 0 by default (R8, R10, D10), else a free value
(log entry 4). -/
def unlistedExtIrq (s : State) : Byte :=
  match s.extIrqParam with
  | .zero => 0x00#8
  | .any => Config.freeExtIrq s.polls

/-- The input of the coming poll (R10): the next one the state lists, else a free time (log entry 4) and what the launch
parameter `EXT_IRQ` gives. -/
def nextInput (s : State) : PollInput :=
  match s.inputs with
  | i :: _ => i
  | [] => { now := Config.freeNow s.polls, extIrq := unlistedExtIrq s }

/-- The input of this poll is used up (R10: sampled once per cycle). -/
def takeInput (s : State) : State := { s with inputs := s.inputs.tail, polls := s.polls + 1 }

/-- `TIMER_FIRE` (R183): at least one second since the last fired timer interrupt. -/
def timerFires (now : Nat) (s : State) : Bool := decide (s.timerLast + Config.timerPeriod ≤ now)

/-- `TimerPoll()` (R183), in every cycle whatever `IE` and `IM` are: a firing sets `IS` bit 0 and records the time. -/
def timerPoll (now : Nat) (s : State) : State :=
  (s.setReg rIS (s.reg rIS ||| (bif timerFires now s then lineBit 0 else 0#8))).setTimerLast
    (bif timerFires now s then now else s.timerLast)

/-- `ExternalPoll()` (R181): the requests on lines 1 to 7; bit 0 of `EXT_IRQ` is ignored. -/
def externalPoll (extIrq : Byte) (s : State) : State :=
  s.setReg rIS (s.reg rIS ||| (extIrq &&& 0b11111110#8))

/-- `InterruptDispatch()` (R186): nothing while `IE` is 0 or no line is ready, else entry for the first ready line. -/
def interruptDispatch (s : State) : Except State State :=
  if s.ie then
    match firstLine s with
    | none => .ok s
    | some i => interruptEntry i s
  else .ok s

/-- The two sources of POLL, which come before dispatch (R92). -/
def pollSources (s : State) : State :=
  externalPoll (nextInput s).extIrq (timerPoll (nextInput s).now (takeInput s))

/-- POLL (R92): timer, external sources, dispatch, in this order. -/
def poll (s : State) : Except State State := interruptDispatch (pollSources s)

/-! ### FETCH, DECODE, EXECUTE, ADVANCE -/

/-- FETCH (R93): the opcode byte and the two bytes after it, read unconditionally, the addresses modulo 256. -/
def fetchBytes (s : State) : List Byte := [s.load s.pc, s.load (s.pc + 1#8), s.load (s.pc + 2#8)]

/-- Under `ADDR_OVERFLOW = fault`, the fetch of an operand byte that the instruction uses leaves 0x00 to 0xFF (R56, R170);
the fetch of an unused operand byte never raises. -/
def fetchOverflows (i : Instr) (s : State) : Bool :=
  decide (s.addrOverflow = .fault) && decide (255 < s.pc.toNat + i.operands.length)

/-- FETCH to ADVANCE (R93 to R98): an opcode byte outside the mapping raises `InvalidOpcode(IR, PC)` (R96). -/
def fetchExecute (s : State) : Host.Outcome State Fault Refusal :=
  match decode (fetchBytes s) with
  | .error _ => raise (.invalidOpcode (s.load s.pc) s.pc) s
  | .ok (i, _) => if fetchOverflows i s then .next (overflow s.pc s) else exec i s

/-- `Cycle()` (R90), as one transition. A faulted core takes no cycle and the run is over; a halted core takes no cycle
and stays as it is (R91, log entry 1). -/
def runCycle (s : State) : Host.Outcome State Fault Refusal :=
  match s.fault with
  | some r => .fault (.faulted r)
  | none => if s.halted then .next s else andThen (poll s) fetchExecute

/-! ### The image, and one instruction placed for the next fetch -/

/-- Write a list of bytes at ascending addresses, modulo 256. -/
def storeBytes : List Byte → Byte → State → State
  | [], _, s => s
  | v :: vs, a, s => storeBytes vs (a + 1#8) (s.store a v)

/-- The image load between reset and the first cycle (R10b, R222): the bytes go to memory from address 0. An image of more
than 256 bytes has no meaning (93_implementation_defined.md U17). -/
def loadImage (image : List Byte) (s : State) : Option State :=
  if image.length ≤ 256 then some (storeBytes image 0#8 s) else none

/-- A launch with the named parameters of R8: `RESET_R0_R6`, `RESET_FL`, `ADDR_OVERFLOW`, `EXT_IRQ` (a parameter, and the
inputs of the first polls where they are given cycle by cycle, `TIMER_FIRE` through their times) and `IMAGE`. `State.reset`
has the defaults of all but the image. `SP` is 0xF4 in every launch (R7). -/
def launch (r0to6 : Vector Byte 7) (fl : Byte) (setting : AddrOverflow) (ext : ExtIrqParam) (inputs : List PollInput)
    (image : List Byte) : Option State :=
  loadImage image { State.reset with
    regs := #v[r0to6[0], r0to6[1], r0to6[2], r0to6[3], r0to6[4], r0to6[5], r0to6[6], 0xF4#8]
    fl := fl
    addrOverflow := setting
    extIrqParam := ext
    inputs := inputs }

/-- The instruction of an opcode-table word stored where the next cycle fetches (log entry 6): at `PC`, in a core that is
neither halted nor faulted and whose coming poll enters no interrupt (`IE` is cleared only where it would enter one). -/
def placeWord (s : State) (nbits w : Nat) : State :=
  { storeBytes (tableBytes nbits w) s.pc s with
    halted := false
    fault := none
    ie := s.ie && (firstLine (pollSources s)).isNone }

end Sys2Proof.Machine
end

