-- ==== Sys2Proof/Machine/Step.lean ====
section
/-! DEFINITION. The step of the machine, one cycle of the execution loop (40_execution_cycle.md R90), and the state that
has a given instruction where the step fetches. -/

namespace Sys2Proof.Machine

/-- One step is one cycle (R90): POLL and one instruction. -/
def step (s : State) : Host.Outcome State Fault Refusal := runCycle s

/-- `s` with the instruction of an opcode-table word placed where the next step fetches (log entry 6). -/
def State.withFetchWord (s : State) (nbits w : Nat) : State := placeWord s nbits w

end Sys2Proof.Machine
end

