-- ==== Sys2Proof/WellFormed.lean ====
section
/-! DEFINITION. Well-formed instructions: every register operand byte names a register (30_encoding.md R75, R76, R80).
An instruction that is not well-formed still has a meaning, the `RegisterIndexFault` of R76. -/

namespace Sys2Proof

/-- A register operand byte names a register exactly when it is 0 to 7 (R76). -/
def isRegOperand (k : Byte) : Bool := decide (k.toNat ≤ 7)

/-- Every register operand of the instruction is 0 to 7. The immediate of `LDI` has no illegal value (R74, R80). -/
def Instr.wellFormed : Instr → Bool
  | .hlt => true
  | .iret => true
  | .push a => isRegOperand a
  | .pop a => isRegOperand a
  | .prn a => isRegOperand a
  | .pra a => isRegOperand a
  | .jmp a => isRegOperand a
  | .jeq a => isRegOperand a
  | .jne a => isRegOperand a
  | .inc a => isRegOperand a
  | .dec a => isRegOperand a
  | .ldi a _ => isRegOperand a
  | .add a b => isRegOperand a && isRegOperand b
  | .sub a b => isRegOperand a && isRegOperand b
  | .mul a b => isRegOperand a && isRegOperand b
  | .div a b => isRegOperand a && isRegOperand b
  | .cmp a b => isRegOperand a && isRegOperand b
  | .and a b => isRegOperand a && isRegOperand b
  | .or a b => isRegOperand a && isRegOperand b
  | .xor a b => isRegOperand a && isRegOperand b
  | .shl a b => isRegOperand a && isRegOperand b

end Sys2Proof
end

