-- ==== Sys2Proof/Safety.lean ====
section
/-! DEFINITION. What claims about this machine are stated in: when a run goes on, ends well or has gone wrong
(00_scope.md R12), the invariant of its states, and what an instruction leaves unchanged. -/

namespace Sys2Proof.Machine

/-- The core is neither halted nor faulted: it has a next cycle (R12). -/
def State.Running (s : State) : Prop := s.halted = false ∧ s.fault = none

/-- The run is over and final (R12). -/
def State.EndedWell (s : State) : Prop := s.halted = true ∧ s.fault = none

/-- The run is over and has gone wrong; a faulted state is never final (R12, R31). -/
def State.Faulted (s : State) : Prop := s.fault ≠ none

/-- `FAULT` records an `AddressOverflow`, code 4 of R170: the run is over and registers and memory are unspecified (R172). -/
def State.Overflowed (s : State) : Prop := ∃ a pc, s.fault = some (.addressOverflow a pc)

/-- The invariant of the machine's states: memory is in canonical form (every address below 256, R29); a fault that is
recorded names the address `PC` still holds (R171), is an `AddressOverflow` only under `ADDR_OVERFLOW = fault` (R170), and in
a halted core is nothing else (only the ADVANCE of `HLT` can still raise, and a halted core takes no cycle, R91). -/
def State.Inv (s : State) : Prop :=
  Memory.wf s.mem = true ∧ (∀ f, s.fault = some f → f.pc = s.pc) ∧ (s.Overflowed → s.addrOverflow = .fault) ∧
    (s.halted = true → s.fault = none ∨ s.Overflowed)

/-- The operand byte `k` names the register `r` (R76). -/
def Names (k : Byte) (r : RegIx) : Prop := k.toNat = r.val

/-- ADVANCE by `width` bytes raises nothing: always so under `wrap`, and under `fault` where the sum stays below 256 (R56). -/
def CanAdvance (width : Nat) (s : State) : Prop := s.addrOverflow = .wrap ∨ s.pc.toNat + width ≤ 255

/-- Every general register outside the list is unchanged. -/
def SameRegsBut (rs : List RegIx) (s t : State) : Prop := ∀ r, r ∉ rs → t.reg r = s.reg r

/-- Every byte of memory is unchanged. -/
def SameMemory (s t : State) : Prop := ∀ a : Byte, t.load a = s.load a

/-- Every byte of memory but the one at `a` is unchanged. -/
def SameMemoryBut (a : Byte) (s t : State) : Prop := ∀ b : Byte, b ≠ a → t.load b = s.load b

/-- `HALTED`, `FAULT`, `TIMER_LAST`, the launch parameters and the inputs are unchanged. -/
def SameRun (s t : State) : Prop :=
  t.halted = s.halted ∧ t.fault = s.fault ∧ t.timerLast = s.timerLast ∧ t.addrOverflow = s.addrOverflow ∧
    t.extIrqParam = s.extIrqParam ∧ t.inputs = s.inputs ∧ t.polls = s.polls

/-- `IE` and everything of `SameRun` are unchanged. -/
def SameControl (s t : State) : Prop := t.ie = s.ie ∧ SameRun s t

/-- Everything but the listed registers and `PC` is unchanged: the frame of an instruction that writes registers only. -/
def WritesOnlyRegs (rs : List RegIx) (s t : State) : Prop :=
  SameRegsBut rs s t ∧ t.fl = s.fl ∧ SameMemory s t ∧ t.out = s.out ∧ SameControl s t

/-- The instruction `i` raises `RegisterIndexFault(k, PC)` and does nothing else (R76, R171). -/
def RaisesIndexFault (i : Instr) (k : Byte) (s : State) : Prop :=
  exec i s = .next { s with fault := some (.registerIndex k s.pc) }

/-- `t` is what `raise AddressOverflow(a, PC)` leaves of `s` (R170 to R172): the fault with its information is recorded, and
`PC`, `IE`, `OUT`, `HALTED`, `TIMER_LAST`, the launch parameters and the inputs are unchanged. Registers, `FL` and memory are
unspecified, so nothing is said of them but that memory is still a memory. -/
def RaisesAddressOverflow (a : Byte) (s t : State) : Prop :=
  t.fault = some (.addressOverflow a s.pc) ∧ t.pc = s.pc ∧ t.ie = s.ie ∧ t.out = s.out ∧ t.halted = s.halted ∧
    t.timerLast = s.timerLast ∧ t.addrOverflow = s.addrOverflow ∧ t.extIrqParam = s.extIrqParam ∧
    t.inputs = s.inputs ∧ t.polls = s.polls ∧ Memory.wf t.mem = true

/-- What the spec says of a two-register operation with opcode byte `code` and result `f` (the rules R111 to R118): its
encoding; with both operands naming registers it completes, register `a` gets the result computed from the old values,
nothing else changes and `PC` moves on by 3; an operand above 7 faults, `a` before `b`. -/
def IsTwoRegisterOp (mk : Byte → Byte → Instr) (code : Byte) (f : Nat → Nat → Nat) : Prop :=
  (∀ a b rest, decode (code :: a :: b :: rest) = .ok (mk a b, rest)) ∧
  (∀ (a b : Byte) (ra rb : RegIx) (s : State), Names a ra → Names b rb → CanAdvance 3 s →
    ∃ t, exec (mk a b) s = .next t ∧ (t.reg ra).toNat = f (s.reg ra).toNat (s.reg rb).toNat ∧
      WritesOnlyRegs [ra] s t ∧ t.pc = s.pc + 3#8) ∧
  (∀ (a b : Byte) (s : State), 7 < a.toNat → RaisesIndexFault (mk a b) a s) ∧
  (∀ (a b : Byte) (s : State), a.toNat ≤ 7 → 7 < b.toNat → RaisesIndexFault (mk a b) b s)

/-- What the spec says of a unary operation with opcode byte `code` and result `f` (R119, R120). -/
def IsOneRegisterOp (mk : Byte → Instr) (code : Byte) (f : Nat → Nat) : Prop :=
  (∀ a rest, decode (code :: a :: rest) = .ok (mk a, rest)) ∧
  (∀ (a : Byte) (ra : RegIx) (s : State), Names a ra → CanAdvance 2 s →
    ∃ t, exec (mk a) s = .next t ∧ (t.reg ra).toNat = f (s.reg ra).toNat ∧
      WritesOnlyRegs [ra] s t ∧ t.pc = s.pc + 2#8) ∧
  (∀ (a : Byte) (s : State), 7 < a.toNat → RaisesIndexFault (mk a) a s)

/-- The address of byte `k` of an interrupt frame pushed from the stack pointer `sp` (R187): `sp - 1` holds `PC`. -/
def frameAddr (sp : Byte) (k : Nat) : Byte := sp - BitVec.ofNat 8 k

/-- `t` is what entry for line `i` leaves of `s` (R186, R187): `IE` and the pending bit are cleared, the nine bytes of the frame
are pushed, nothing else of the registers, `FL`, `OUT` and memory changes, and `PC` is the vector, read after the pushes. -/
def EntersInterrupt (i : RegIx) (s t : State) : Prop :=
  t.ie = false ∧ t.reg rIS = s.reg rIS &&& ~~~(1#8 <<< i.val) ∧
    t.reg rSP = s.reg rSP - 9#8 ∧ SameRegsBut [rIS, rSP] s t ∧ t.fl = s.fl ∧ t.out = s.out ∧ SameRun s t ∧
    t.load (frameAddr (s.reg rSP) 1) = s.pc ∧ t.load (frameAddr (s.reg rSP) 2) = s.fl ∧
    t.load (frameAddr (s.reg rSP) 3) = s.reg 0 ∧ t.load (frameAddr (s.reg rSP) 4) = s.reg 1 ∧
    t.load (frameAddr (s.reg rSP) 5) = s.reg 2 ∧ t.load (frameAddr (s.reg rSP) 6) = s.reg 3 ∧
    t.load (frameAddr (s.reg rSP) 7) = s.reg 4 ∧ t.load (frameAddr (s.reg rSP) 8) = s.reg 5 ∧
    t.load (frameAddr (s.reg rSP) 9) = t.reg rIS ∧
    (∀ b : Byte, (∀ k, 1 ≤ k → k ≤ 9 → b ≠ frameAddr (s.reg rSP) k) → t.load b = s.load b) ∧
    t.pc = t.load (0xF8#8 + BitVec.ofNat 8 i.val)

/-- Line `i` is the one dispatch takes (R184, R185): `IE` is 1 and `i` is the lowest bit of `IM & IS` that is set. -/
def Selects (s : State) (i : RegIx) : Prop :=
  s.ie = true ∧ (s.reg rIM &&& s.reg rIS).getLsbD i.val = true ∧
    ∀ j : RegIx, j < i → (s.reg rIM &&& s.reg rIS).getLsbD j.val = false

/-- Pop `n` bytes, answering them in the order they were popped. -/
def popMany : Nat → State → Except State (List Byte × State)
  | 0, s => .ok ([], s)
  | n + 1, s =>
    match pop s with
    | .error t => .error t
    | .ok (v, t) =>
      match popMany n t with
      | .error t => .error t
      | .ok (vs, u) => .ok (v :: vs, u)

end Sys2Proof.Machine
end

