-- ==== Sys2Proof/Certificates/Slice0/Obligations.lean ====
section
/-! DEFINITION. The statements for the provers. Each docstring says which rule of spec/ it formalises; where it rests on
a decision or an inference the spec marks as its own, or on a choice of the model, the docstring says which. -/

open Sys2Proof Sys2Proof.Machine

/-! ### Reset and memory -/

/-- The state after reset (10_state.md R40, 70_reset_and_hazards.md R220). `SP` = 0xF4 is the source's; the other values are
the spec's own decisions D7, D8, D9, D17, D18 (log entry 9), and `ADDR_OVERFLOW` and `EXT_IRQ` stand at its defaults D6 and D10.
`TIMER_LAST` is the time of reset, from which the model counts time (its choice, log entry 5). -/
def Obligations.ResetState : Prop :=
  (∀ r : RegIx, State.reset.reg r = if r = rSP then 0xF4#8 else 0x00#8) ∧ State.reset.pc = 0x00#8 ∧
    State.reset.fl = 0x00#8 ∧ State.reset.ie = true ∧ State.reset.halted = false ∧ State.reset.fault = none ∧
    (∀ a : Byte, State.reset.load a = 0x00#8) ∧ State.reset.out = [] ∧ State.reset.timerLast = 0 ∧
    State.reset.addrOverflow = .wrap ∧ State.reset.extIrqParam = .zero

/-- 20_memory.md R51: a write replaces the content of one cell and changes nothing else, and the new byte is what every
later read returns, the fetch included. -/
def Obligations.MemoryWriteReplacesOneCell : Prop :=
  ∀ (s : State) (a v : Byte), (s.store a v).load a = v ∧ SameMemoryBut a s (s.store a v) ∧
    SameRegsBut [] s (s.store a v) ∧ (s.store a v).pc = s.pc ∧ (s.store a v).fl = s.fl ∧
    (s.store a v).out = s.out ∧ SameControl s (s.store a v) ∧ (fetchBytes (s.store s.pc v)).head? = some v

/-- 20_memory.md R60, R61: Push decrements `SP` and then writes at the new `SP`; Pop reads at `SP` and then increments it,
and the popped cell keeps its content; under `wrap` neither raises anything. -/
def Obligations.PushAndPopPrimitives : Prop :=
  (∀ (v : Byte) (s : State), s.addrOverflow = .wrap → ∃ t, push v s = .ok t ∧ t.reg rSP = s.reg rSP - 1#8 ∧
    t.load (s.reg rSP - 1#8) = v ∧ SameMemoryBut (s.reg rSP - 1#8) s t ∧ SameRegsBut [rSP] s t ∧ t.pc = s.pc ∧
    t.fl = s.fl ∧ t.out = s.out ∧ SameControl s t) ∧
  (∀ s : State, s.addrOverflow = .wrap → ∃ t, pop s = .ok (s.load (s.reg rSP), t) ∧ t.reg rSP = s.reg rSP + 1#8 ∧
    WritesOnlyRegs [rSP] s t ∧ t.pc = s.pc)

/-- 20_memory.md R63 (the source's property; the spec derives it from R60 and R61): up to 256 pushes and as many pops give
the values back in reverse order and restore `SP`. -/
def Obligations.StackRoundTrip : Prop :=
  ∀ (vs : List Byte) (s t : State), vs.length ≤ 256 → pushAll vs s = .ok t →
    ∃ u, popMany vs.length t = .ok (vs.reverse, u) ∧ u.reg rSP = s.reg rSP ∧ SameRegsBut [rSP] s u ∧ SameMemory t u

/-- The canonical form of memory is unique: two canonical lists that read alike are equal. The form is the model's own
(log entry 8), over the 256 cells of 10_state.md R29. -/
def Obligations.CanonicalMemoryIsUnique : Prop :=
  ∀ m m' : List Host.Cell, Memory.wf m = true → Memory.wf m' = true →
    (∀ a : Nat, a < 256 → Memory.read m a = Memory.read m' a) → m = m'

/-- The image load (00_scope.md R10b, 70_reset_and_hazards.md R222, the spec's D8): byte `k` of the image in cell `k`, 0x00
in every cell the image does not reach, all else as at reset; a longer image has no meaning (U17). The launch parameters of
R8 (`RESET_R0_R6`, `RESET_FL`, `ADDR_OVERFLOW`, `EXT_IRQ`, and the inputs of the first polls, whose list is the model's form,
log entry 4) are what the launched state holds; whatever they are, every other piece of state has its reset value: `SP` (R7),
`PC` and `IE` (D7), `HALTED` and `FAULT` (D17), `OUT` (D18), and `TIMER_LAST`, the time of reset, from which the model counts
(D9, log entry 5). The parameters' defaults give the reset state. -/
def Obligations.ImageLoad : Prop :=
  (∀ image : List Byte, image.length ≤ 256 → ∃ s, loadImage image State.reset = some s ∧
    (∀ a : Byte, s.load a = image.getD a.toNat 0x00#8) ∧ Memory.wf s.mem = true ∧
    s = { State.reset with mem := s.mem }) ∧
  (∀ image : List Byte, 256 < image.length → loadImage image State.reset = none) ∧
  (∀ (q : Vector Byte 7) (fl : Byte) (setting : AddrOverflow) (ext : ExtIrqParam) (inputs : List PollInput)
      (image : List Byte), image.length ≤ 256 →
    ∃ s, launch q fl setting ext inputs image = some s ∧ (∀ k : Fin 7, s.reg k.castSucc = q[k.val]) ∧
      s.reg rSP = 0xF4#8 ∧ s.fl = fl ∧ s.addrOverflow = setting ∧ s.extIrqParam = ext ∧ s.inputs = inputs ∧
      (∀ a : Byte, s.load a = image.getD a.toNat 0x00#8) ∧ s.Running ∧ s.pc = 0x00#8 ∧ s.ie = true ∧ s.out = [] ∧
      s.timerLast = 0) ∧
  (∀ image : List Byte, launch (Vector.replicate 7 0x00#8) 0x00#8 .wrap .zero [] image = loadImage image State.reset)

/-! ### The ALU -/

/-- 41_alu.md R111, R112, R113: ADD, SUB and MUL, modulo 256. The opcode bytes are the spec's decision D1, the index
faults its D5. -/
def Obligations.ArithmeticInstructions : Prop :=
  IsTwoRegisterOp .add 0xA0#8 (fun x y => (x + y) % 256) ∧
  IsTwoRegisterOp .sub 0xA1#8 (fun x y => (x + 256 - y) % 256) ∧
  IsTwoRegisterOp .mul 0xA2#8 (fun x y => (x * y) % 256)

/-- 41_alu.md R115, R116, R117: AND, OR and XOR, bit by bit. The opcode bytes are the spec's decision D1, the index
faults its D5. -/
def Obligations.BitwiseInstructions : Prop :=
  IsTwoRegisterOp .and 0xA8#8 (fun x y => x &&& y) ∧
  IsTwoRegisterOp .or 0xAA#8 (fun x y => x ||| y) ∧
  IsTwoRegisterOp .xor 0xAB#8 (fun x y => x ^^^ y)

/-- SHL multiplies by 2 to the whole count, modulo 256 (41_alu.md section 3). That the count is not reduced modulo 8 is the
spec's decision D14. -/
def Obligations.ShiftLeftInstruction : Prop :=
  IsTwoRegisterOp .shl 0xAC#8 (fun x n => (x * 2 ^ n) % 256) ∧
  (∀ x n : Byte, 8 ≤ n.toNat → shiftLeft x n = 0#8)

/-- DIV: the unsigned floor quotient (the spec's decision D13), `DivideByZero(PC)` before any write when the divisor register
holds 0, index faults before it, operand `a` first (41_alu.md section 2, 60_exceptions.md R174). -/
def Obligations.DivideInstruction : Prop :=
  (∀ a b rest, decode (0xA3#8 :: a :: b :: rest) = .ok (.div a b, rest)) ∧
  (∀ (a b : Byte) (ra rb : RegIx) (s : State), Names a ra → Names b rb → s.reg rb ≠ 0#8 → CanAdvance 3 s →
    ∃ t, exec (.div a b) s = .next t ∧ (t.reg ra).toNat * (s.reg rb).toNat ≤ (s.reg ra).toNat ∧
      (s.reg ra).toNat < ((t.reg ra).toNat + 1) * (s.reg rb).toNat ∧ WritesOnlyRegs [ra] s t ∧ t.pc = s.pc + 3#8) ∧
  (∀ (a b : Byte) (ra rb : RegIx) (s : State), Names a ra → Names b rb → s.reg rb = 0#8 →
    exec (.div a b) s = .next { s with fault := some (.divideByZero s.pc) }) ∧
  (∀ (a b : Byte) (s : State), 7 < a.toNat → RaisesIndexFault (.div a b) a s) ∧
  (∀ (a b : Byte) (s : State), a.toNat ≤ 7 → 7 < b.toNat → RaisesIndexFault (.div a b) b s)

/-- 41_alu.md R119, R120: INC and DEC, modulo 256; no flag changes. The opcode bytes are the spec's decision D1, the index
faults its D5. -/
def Obligations.IncrementAndDecrement : Prop :=
  IsOneRegisterOp .inc 0x65#8 (fun x => (x + 1) % 256) ∧ IsOneRegisterOp .dec 0x66#8 (fun x => (x + 255) % 256)

/-- CMP (41_alu.md section 5): exactly one of LT, GT, EQ, by the comparison of the two bytes as unsigned numbers (the spec's
decision D13); bits 7 to 3 of `FL` are kept (D15); no register changes; a bad index leaves `FL` as it was. -/
def Obligations.CompareInstruction : Prop :=
  (∀ a b rest, decode (0xA7#8 :: a :: b :: rest) = .ok (.cmp a b, rest)) ∧
  (∀ (a b : Byte) (ra rb : RegIx) (s : State), Names a ra → Names b rb → CanAdvance 3 s →
    ∃ t, exec (.cmp a b) s = .next t ∧
      t.fl.getLsbD 2 = decide ((s.reg ra).toNat < (s.reg rb).toNat) ∧
      t.fl.getLsbD 1 = decide ((s.reg rb).toNat < (s.reg ra).toNat) ∧
      t.fl.getLsbD 0 = decide ((s.reg ra).toNat = (s.reg rb).toNat) ∧
      (∀ k, 3 ≤ k → t.fl.getLsbD k = s.fl.getLsbD k) ∧
      SameRegsBut [] s t ∧ SameMemory s t ∧ t.out = s.out ∧ SameControl s t ∧ t.pc = s.pc + 3#8) ∧
  (∀ (a b : Byte) (s : State), 7 < a.toNat → RaisesIndexFault (.cmp a b) a s) ∧
  (∀ (a b : Byte) (s : State), a.toNat ≤ 7 → 7 < b.toNat → RaisesIndexFault (.cmp a b) b s)

/-- 41_alu.md R126: an ALU operation depends on its named registers (and CMP, alone of them, on the upper five bits of `FL`)
alone: from two states that agree on these, whatever else differs (for the ten others, all of `FL` too), the named registers,
and CMP's flags, come out alike. -/
def Obligations.AluOperationsArePure : Prop :=
  ∀ (i : Instr) (s s' t t' : State),
    i.op ∈ [Op.add, .sub, .mul, .div, .and, .or, .xor, .shl, .inc, .dec, .cmp] →
    (∀ k ∈ i.operands, ∀ r, Names k r → s.reg r = s'.reg r) → (i.op = .cmp → s.fl &&& 0xF8#8 = s'.fl &&& 0xF8#8) →
    exec i s = .next t → exec i s' = .next t' → t.fault = none → t'.fault = none →
    (∀ k ∈ i.operands, ∀ r, Names k r → t.reg r = t'.reg r) ∧ (i.op = .cmp → t.fl = t'.fl)

/-! ### Load immediate and the stack instructions -/

/-- 42_load_immediate.md R130: LDI writes the immediate byte as it stands; any of the eight registers may be named; the
immediate is not checked. The opcode bytes are the spec's decision D1, the index
faults its D5. -/
def Obligations.LoadImmediateInstruction : Prop :=
  (∀ a imm rest, decode (0x82#8 :: a :: imm :: rest) = .ok (.ldi a imm, rest)) ∧
  (∀ (a imm : Byte) (rd : RegIx) (s : State), Names a rd → CanAdvance 3 s →
    ∃ t, exec (.ldi a imm) s = .next t ∧ t.reg rd = imm ∧ WritesOnlyRegs [rd] s t ∧ t.pc = s.pc + 3#8) ∧
  (∀ (a imm : Byte) (s : State), 7 < a.toNat → RaisesIndexFault (.ldi a imm) a s)

/-- PUSH (43_stack.md section of R135): the old value of the register (of `SP` itself for `PUSH R7`, the spec's decision D16)
goes to the cell below the old `SP`, which moves down by one; under `ADDR_OVERFLOW = fault` (D6) a push at `SP` = 0
raises `AddressOverflow` (what that leaves: log entry 2). -/
def Obligations.PushInstruction : Prop :=
  (∀ a rest, decode (0x45#8 :: a :: rest) = .ok (.push a, rest)) ∧
  (∀ (a : Byte) (ra : RegIx) (s : State), Names a ra → CanAdvance 2 s →
    (s.addrOverflow = .wrap ∨ s.reg rSP ≠ 0#8) →
    ∃ t, exec (.push a) s = .next t ∧ t.reg rSP = s.reg rSP - 1#8 ∧ t.load (s.reg rSP - 1#8) = s.reg ra ∧
      SameMemoryBut (s.reg rSP - 1#8) s t ∧ SameRegsBut [rSP] s t ∧ t.fl = s.fl ∧ t.out = s.out ∧ SameControl s t ∧
      t.pc = s.pc + 2#8) ∧
  (∀ (a : Byte) (s : State), 7 < a.toNat → RaisesIndexFault (.push a) a s) ∧
  (∀ (a : Byte) (ra : RegIx) (s : State), Names a ra → s.addrOverflow = .fault → s.reg rSP = 0#8 →
    ∃ t, exec (.push a) s = .next t ∧ RaisesAddressOverflow 0#8 s t)

/-- POP (43_stack.md section of R136): the byte at `SP` goes to the register, written last (so `POP R7` leaves `SP` equal to
the popped byte, the spec's decision D16), and `SP` moves up by one; memory is unchanged; under `ADDR_OVERFLOW = fault` (D6) a
pop at `SP` = 0xFF raises `AddressOverflow` (what that leaves: log entry 2). -/
def Obligations.PopInstruction : Prop :=
  (∀ a rest, decode (0x46#8 :: a :: rest) = .ok (.pop a, rest)) ∧
  (∀ (a : Byte) (rd : RegIx) (s : State), Names a rd → CanAdvance 2 s →
    (s.addrOverflow = .wrap ∨ s.reg rSP ≠ 0xFF#8) →
    ∃ t, exec (.pop a) s = .next t ∧ t.reg rd = s.load (s.reg rSP) ∧ (rd ≠ rSP → t.reg rSP = s.reg rSP + 1#8) ∧
      WritesOnlyRegs [rd, rSP] s t ∧ t.pc = s.pc + 2#8) ∧
  (∀ (a : Byte) (s : State), 7 < a.toNat → RaisesIndexFault (.pop a) a s) ∧
  (∀ (a : Byte) (rd : RegIx) (s : State), Names a rd → s.addrOverflow = .fault → s.reg rSP = 0xFF#8 →
    ∃ t, exec (.pop a) s = .next t ∧ RaisesAddressOverflow 0xFF#8 s t)

/-- The source's scenario (43_stack.md R137, derived there): PUSH of one register and then POP into another copies it and
leaves `SP` as before (unless the popped register is `SP`), and no other register changes. -/
def Obligations.PushThenPopCopies : Prop :=
  ∀ (a b : Byte) (ra rd : RegIx) (s : State), Names a ra → Names b rd → s.addrOverflow = .wrap →
    ∃ t u, exec (.push a) s = .next t ∧ exec (.pop b) t = .next u ∧ u.reg rd = s.reg ra ∧ SameRegsBut [rd] s u

/-! ### Control flow, console, HLT -/

/-- JMP (44_control_flow.md R145; that the operand is a register holding the target is the spec's decision D4): `PC` becomes
the register's content, nothing else changes. -/
def Obligations.JumpInstruction : Prop :=
  (∀ a rest, decode (0x54#8 :: a :: rest) = .ok (.jmp a, rest)) ∧
  (∀ (a : Byte) (ra : RegIx) (s : State), Names a ra → exec (.jmp a) s = .next { s with pc := s.reg ra }) ∧
  (∀ (a : Byte) (s : State), 7 < a.toNat → RaisesIndexFault (.jmp a) a s)

/-- JEQ and JNE (44_control_flow.md R146, R147; D2 to D4): the EQ flag alone decides; taken, `PC` becomes the register's
content; not taken, `PC` advances once past the instruction (40_execution_cycle.md R97, D21); the index is checked either
way. -/
def Obligations.ConditionalJumps : Prop :=
  (∀ a rest, decode (0x55#8 :: a :: rest) = .ok (.jeq a, rest)) ∧
  (∀ a rest, decode (0x56#8 :: a :: rest) = .ok (.jne a, rest)) ∧
  (∀ (a : Byte) (ra : RegIx) (s : State), Names a ra → s.fl.getLsbD 0 = true →
    exec (.jeq a) s = .next { s with pc := s.reg ra } ∧
    (CanAdvance 2 s → exec (.jne a) s = .next { s with pc := s.pc + 2#8 })) ∧
  (∀ (a : Byte) (ra : RegIx) (s : State), Names a ra → s.fl.getLsbD 0 = false →
    (CanAdvance 2 s → exec (.jeq a) s = .next { s with pc := s.pc + 2#8 }) ∧
    exec (.jne a) s = .next { s with pc := s.reg ra }) ∧
  (∀ (a : Byte) (s : State), 7 < a.toNat → RaisesIndexFault (.jeq a) a s ∧ RaisesIndexFault (.jne a) a s)

/-- PRN and PRA (45_system_io.md section of R155 and R156; events are the spec's decision D18): `OUT` gains one event with
the register's value, nothing else changes but `PC`. -/
def Obligations.ConsoleOutput : Prop :=
  (∀ a rest, decode (0x47#8 :: a :: rest) = .ok (.prn a, rest)) ∧
  (∀ a rest, decode (0x48#8 :: a :: rest) = .ok (.pra a, rest)) ∧
  (∀ (a : Byte) (ra : RegIx) (s : State), Names a ra → CanAdvance 2 s →
    exec (.prn a) s = .next { s with out := s.out ++ [.num (s.reg ra)], pc := s.pc + 2#8 } ∧
    exec (.pra a) s = .next { s with out := s.out ++ [.chr (s.reg ra)], pc := s.pc + 2#8 }) ∧
  (∀ (a : Byte) (s : State), 7 < a.toNat → RaisesIndexFault (.prn a) a s ∧ RaisesIndexFault (.pra a) a s)

/-- HLT (40_execution_cycle.md R100): `HALTED` is set and ADVANCE runs (the spec's decision D12); from there, if that ADVANCE
raised nothing, no step changes anything (R91; that the step of a halted core answers the same state is the model's form,
log entry 1). -/
def Obligations.HaltInstruction : Prop :=
  (∀ rest, decode (0x01#8 :: rest) = .ok (.hlt, rest)) ∧
  (∀ s : State, CanAdvance 1 s → exec .hlt s = .next { s with halted := true, pc := s.pc + 1#8 }) ∧
  (∀ s t : State, exec .hlt s = .next t → t.fault = none → step t = .next t)

/-! ### Interrupts -/

/-- 45_system_io.md R157: IRET pops `R6` down to `R0`, then `FL`, then `PC`, and sets `IE`; `SP` rises by 9; memory and `OUT`
are unchanged; under `ADDR_OVERFLOW = fault` it raises `AddressOverflow` if a pop would carry `SP` past 0xFF
(D6; what that leaves: log entry 2). The opcode byte is the spec's decision D1, the mnemonic its D3. -/
def Obligations.ReturnFromInterruptInstruction : Prop :=
  (∀ rest, decode (0x13#8 :: rest) = .ok (.iret, rest)) ∧
  (∀ s : State, (s.addrOverflow = .wrap ∨ (s.reg rSP).toNat + 9 ≤ 255) →
    ∃ t, exec .iret s = .next t ∧ t.reg 6 = s.load (s.reg rSP) ∧ t.reg 5 = s.load (s.reg rSP + 1#8) ∧
      t.reg 4 = s.load (s.reg rSP + 2#8) ∧ t.reg 3 = s.load (s.reg rSP + 3#8) ∧
      t.reg 2 = s.load (s.reg rSP + 4#8) ∧ t.reg 1 = s.load (s.reg rSP + 5#8) ∧
      t.reg 0 = s.load (s.reg rSP + 6#8) ∧ t.fl = s.load (s.reg rSP + 7#8) ∧ t.pc = s.load (s.reg rSP + 8#8) ∧
      t.reg rSP = s.reg rSP + 9#8 ∧ t.ie = true ∧ SameMemory s t ∧ t.out = s.out ∧ SameRun s t) ∧
  (∀ s : State, s.addrOverflow = .fault → 255 < (s.reg rSP).toNat + 9 →
    ∃ t, exec .iret s = .next t ∧ RaisesAddressOverflow 0xFF#8 s t)

/-- 60_exceptions.md R185, R186: while `IE` is 0 or no line is both pending and enabled, dispatch does nothing; else it enters
the lowest such line `i`: `IE` and the pending bit are cleared, the nine bytes of the frame are pushed in order, nothing
else of the registers, `FL` and memory changes, and `PC` is loaded from the vector, read after the pushes. Under `wrap` it
raises nothing. -/
def Obligations.InterruptEntry : Prop :=
  (∀ s : State, s.ie = false → interruptDispatch s = .ok s) ∧
  (∀ s : State, s.reg rIM &&& s.reg rIS = 0#8 → interruptDispatch s = .ok s) ∧
  (∀ (s : State) (i : RegIx), Selects s i → s.addrOverflow = .wrap →
    ∃ t, interruptDispatch s = .ok t ∧ EntersInterrupt i s t)

/-- Interrupt entry under `ADDR_OVERFLOW = fault` (60_exceptions.md R170 code 4, R172, R186; the spec's decision D6): with nine
cells below `SP` it is as under `wrap`; with fewer it raises `AddressOverflow` at `SP` = 0, when `IE` is already cleared, the
interrupted `PC` is recorded and kept, and the cycle ends there. What the raise leaves is log entry 2. -/
def Obligations.InterruptEntryUnderFaultSetting : Prop :=
  (∀ (s : State) (i : RegIx), Selects s i → s.addrOverflow = .fault → 9 ≤ (s.reg rSP).toNat →
    ∃ t, interruptDispatch s = .ok t ∧ EntersInterrupt i s t) ∧
  (∀ (s : State) (i : RegIx), Selects s i → s.addrOverflow = .fault → (s.reg rSP).toNat < 9 →
    ∃ t, interruptDispatch s = .error t ∧ RaisesAddressOverflow 0#8 { s with ie := false } t) ∧
  (∀ s t : State, s.Running → poll s = .error t → step s = .next t)

/-- `EXT_IRQ` by default (00_scope.md R8 and R10, 60_exceptions.md R181, the spec's decision D10): where the launch parameter
stands at its default and the state lists no input, the request byte is 0, `ExternalPoll()` does nothing, and the poll's
sources leave lines 1 to 7 of `IS`. After reset the parameter stands at its default. -/
def Obligations.ExternalRequestsDefaultToNone : Prop :=
  (∀ s : State, s.inputs = [] → s.extIrqParam = .zero →
    (nextInput s).extIrq = 0x00#8 ∧ externalPoll (nextInput s).extIrq s = s ∧
      ∀ k, 1 ≤ k → k < 8 → ((pollSources s).reg rIS).getLsbD k = (s.reg rIS).getLsbD k) ∧
  State.reset.inputs = [] ∧ State.reset.extIrqParam = .zero

/-- What the polls never do (60_exceptions.md R184, R191; the source's masking property): a line that is pending stays pending
through POLL unless `IE` was 1 and the line enabled, and then `IE` is 0 afterwards. -/
def Obligations.PendingRequestsStay : Prop :=
  ∀ (s p : State) (i : RegIx), poll s = .ok p → (s.reg rIS).getLsbD i.val = true →
    (p.reg rIS).getLsbD i.val = false → s.ie = true ∧ (s.reg rIM).getLsbD i.val = true ∧ p.ie = false

/-- `TimerPoll()` (60_exceptions.md R183): when at least one second (the model counts microseconds, log entry 5) has passed
since the last firing, `IS` bit 0 is set and the time recorded, whatever `IE` and `IM` are; else nothing changes. Both are
possible in every state, as the spec's D9 asks of `TIMER_FIRE`. -/
def Obligations.TimerPollSetsLineZero : Prop :=
  (∀ (now : Nat) (s : State), s.timerLast + 1000000 ≤ now →
    (timerPoll now s).reg rIS = s.reg rIS ||| 1#8 ∧ (timerPoll now s).timerLast = now ∧
      SameRegsBut [rIS] s (timerPoll now s) ∧
      timerPoll now s = { s with regs := (timerPoll now s).regs, timerLast := now }) ∧
  (∀ (now : Nat) (s : State), now < s.timerLast + 1000000 → timerPoll now s = s) ∧
  (∀ s : State, (∃ now, (timerPoll now s).timerLast = now ∧ ((timerPoll now s).reg rIS).getLsbD 0 = true) ∧
    ∃ now, timerPoll now s = s)

/-- `ExternalPoll()` (60_exceptions.md R181, the spec's decision D10): bits 1 to 7 of `EXT_IRQ` are ORed into `IS`, bit 0 is
ignored, nothing else changes. -/
def Obligations.ExternalPollSetsLinesOneToSeven : Prop :=
  ∀ (extIrq : Byte) (s : State),
    ((externalPoll extIrq s).reg rIS).getLsbD 0 = (s.reg rIS).getLsbD 0 ∧
    (∀ k, 1 ≤ k → k < 8 →
      ((externalPoll extIrq s).reg rIS).getLsbD k = ((s.reg rIS).getLsbD k || extIrq.getLsbD k)) ∧
    SameRegsBut [rIS] s (externalPoll extIrq s) ∧
    externalPoll extIrq s = { s with regs := (externalPoll extIrq s).regs }

/-- Entry and return are inverse (60_exceptions.md R190, the source's property as the spec resolves it, C9): after entry for
line `i`, whatever the handler did to `R0` to `R6`, `FL`, `OUT` and the cells outside the frame, an `IRET` with `SP` and the
nine frame bytes as entry left them restores `PC`, `FL`, `R0` to `R5`, `SP`, and `R6` with bit `i` cleared, and sets `IE`. -/
def Obligations.EntryThenReturnRestores : Prop :=
  ∀ (i : RegIx) (s t u : State), s.addrOverflow = .wrap → interruptEntry i s = .ok t → u.addrOverflow = .wrap →
    u.reg rSP = t.reg rSP → (∀ k, 1 ≤ k → k ≤ 9 → u.load (frameAddr (s.reg rSP) k) = t.load (frameAddr (s.reg rSP) k)) →
    ∃ v, exec .iret u = .next v ∧ v.pc = s.pc ∧ v.fl = s.fl ∧ SameRegsBut [rIS] s v ∧
      v.reg rIS = s.reg rIS &&& ~~~(1#8 <<< i.val) ∧ v.ie = true ∧ SameMemory u v

/-- No nesting (60_exceptions.md R189, derived there): while `IE` is 0 the poll enters nothing, and a step leaves `IE` at 1
only if the instruction it fetched is `IRET`. -/
def Obligations.NoNestingInsideHandler : Prop :=
  (∀ s p : State, s.ie = false → poll s = .ok p →
    p.ie = false ∧ p.pc = s.pc ∧ SameRegsBut [rIS] s p ∧ SameMemory s p) ∧
  (∀ s t : State, s.ie = false → step s = .next t → t.ie = true →
    ∃ rest, decode (fetchBytes s) = .ok (.iret, rest))

/-- A software-raised interrupt (60_exceptions.md R182, derived there): after `LDI R6, m` with `IE` at 1 and an enabled line
among the bits of `m`, the next poll enters a handler. -/
def Obligations.SoftwareRaisesInterrupt : Prop :=
  ∀ (a m : Byte) (s t : State), Names a rIS → s.addrOverflow = .wrap → s.ie = true → s.reg rIM &&& m ≠ 0#8 →
    exec (.ldi a m) s = .next t →
    ∃ (p : State) (i : RegIx), poll t = .ok p ∧ p.ie = false ∧ (s.reg rIM).getLsbD i.val = true ∧
      p.pc = p.load (0xF8#8 + BitVec.ofNat 8 i.val) ∧ p.load (frameAddr (t.reg rSP) 1) = t.pc

/-! ### The cycle -/

/-- A step runs the decoded instruction (40_execution_cycle.md R90, R92, R93, R95): on a running core, POLL (timer, external
sources, dispatch, in this order) gives `p`, the three bytes at `p`'s `PC` decode to `i`, and the step is `exec i p`. Under
`ADDR_OVERFLOW = fault` (the spec's D6) the used operand bytes must lie below 0x100. -/
def Obligations.StepRunsDecodedInstruction : Prop :=
  ∀ (s p : State) (i : Instr) (rest : List Byte), s.Running →
    interruptDispatch (externalPoll (nextInput s).extIrq (timerPoll (nextInput s).now (takeInput s))) = .ok p →
    decode [p.load p.pc, p.load (p.pc + 1#8), p.load (p.pc + 2#8)] = .ok (i, rest) →
    (p.addrOverflow = .wrap ∨ p.pc.toNat + i.operands.length ≤ 255) → step s = exec i p

/-- 40_execution_cycle.md R96: an opcode byte outside the mapping raises `InvalidOpcode(IR, PC)`; `PC` still holds its
address and nothing but POLL's effects has happened. The 21 byte values are the spec's decision D1. -/
def Obligations.IllegalOpcodeFaults : Prop :=
  ∀ (s p : State), s.Running → poll s = .ok p → (p.load p.pc).toNat ∉
      [0x01, 0x13, 0x45, 0x46, 0x47, 0x48, 0x54, 0x55, 0x56, 0x65, 0x66, 0x82, 0xA0, 0xA1, 0xA2, 0xA3, 0xA7, 0xA8,
       0xAA, 0xAB, 0xAC] →
    step s = .next { p with fault := some (.invalidOpcode (p.load p.pc) p.pc) }

/-- 40_execution_cycle.md R91: a halted or faulted core takes no cycle: nothing is polled, dispatched or fetched. The form of
the two outcomes is the model's (log entry 1). -/
def Obligations.TerminalCoreTakesNoCycle : Prop :=
  (∀ s : State, s.EndedWell → step s = .next s) ∧
  (∀ (s : State) (f : FaultRecord), s.fault = some f → step s = .fault (.faulted f))

/-- The only liveness fact (00_scope.md R12, 70_reset_and_hazards.md R240): a core that is neither halted nor faulted always
takes its next cycle, and every instruction answers a next state. A fault that is raised is recorded in that state (the model's
form, log entry 1); under the default `wrap` a well-formed instruction other than DIV raises none. -/
def Obligations.RunningCoreAlwaysSteps : Prop :=
  (∀ s : State, s.Running → ∃ t, step s = .next t) ∧
  (∀ (i : Instr) (s : State), ∃ t, exec i s = .next t) ∧
  (∀ (i : Instr) (s t : State), s.addrOverflow = .wrap → i.wellFormed = true → i.op ≠ .div → exec i s = .next t →
    t.fault = s.fault)

/-- No step and no instruction is refused: every byte has a meaning, a legal opcode's or the fault of 30_encoding.md R80. -/
def Obligations.NothingIsRefused : Prop :=
  (∀ (i : Instr) (s : State) (r : Refusal), exec i s ≠ .refused r) ∧ ∀ (s : State) (r : Refusal), step s ≠ .refused r

/-- The environment is sampled once per cycle (00_scope.md R10) and the launch parameters are constants (R8): a cycle
uses up one listed input, counts one poll and keeps `ADDR_OVERFLOW` and `EXT_IRQ`; the listed input is the one used. That inputs are listed in
the state, and polls counted, is the model's form (log entries 3 and 4). -/
def Obligations.EnvironmentSampledOncePerCycle : Prop :=
  (∀ s t : State, s.Running → step s = .next t →
    t.inputs = s.inputs.tail ∧ t.polls = s.polls + 1 ∧ t.addrOverflow = s.addrOverflow ∧
      t.extIrqParam = s.extIrqParam) ∧
  (∀ (s : State) (x : PollInput) (l : List PollInput), s.inputs = x :: l → nextInput s = x)

/-- The source's property of ADVANCE (40_execution_cycle.md R99, derived there): an instruction that completes without fault
moves `PC` by exactly `((opcode >> 6) & 3) + 1`, unless it is JMP, IRET, a taken JEQ or a taken JNE. -/
def Obligations.AdvanceMovesByDecodedWidth : Prop :=
  ∀ (i : Instr) (s t : State), exec i s = .next t → t.fault = none →
    i.op ≠ .jmp → i.op ≠ .iret → ¬(i.op = .jeq ∧ s.fl.getLsbD 0 = true) → ¬(i.op = .jne ∧ s.fl.getLsbD 0 = false) →
    t.pc = s.pc + BitVec.ofNat 8 ((i.op.code.toNat >>> 6) % 4 + 1)

/-- Faults of codes 1 to 3 are precise (60_exceptions.md R171, the spec's decision D17). An instruction that raises code 2 or 3
changes nothing but `FAULT`, which names the instruction's own address, and it is `DivideByZero` of a DIV or the index fault
(D5) of a register operand byte above 7. A cycle that raises code 1, 2 or 3 leaves the state POLL left but for `FAULT`, and code 1 is
`InvalidOpcode` of the byte at `PC`, which decodes to nothing. -/
def Obligations.FaultsArePrecise : Prop :=
  (∀ (i : Instr) (s t : State) (f : FaultRecord), s.fault = none → exec i s = .next t → t.fault = some f → f.code ≠ 4 →
    t = { s with fault := some f } ∧
    ((i.op = .div ∧ f = .divideByZero s.pc) ∨ ∃ k ∈ i.regOperands, 7 < k.toNat ∧ f = .registerIndex k s.pc)) ∧
  (∀ (s p t : State) (f : FaultRecord), s.Running → poll s = .ok p → step s = .next t → t.fault = some f → f.code ≠ 4 →
    t = { p with fault := some f } ∧ f.pc = p.pc ∧
    (f.code = 1 → f = .invalidOpcode (p.load p.pc) p.pc ∧ ∃ e, decode (fetchBytes p) = .error e))

/-- The stricter setting `ADDR_OVERFLOW = fault` (20_memory.md R56, 60_exceptions.md R170 code 4, the spec's decision D6): when
`inc8`, `dec8`, ADVANCE, the fall-through of a conditional jump and the fetch of a used operand byte raise, and when they do
not; the fetch of an unused operand byte never does (D23). The raise comes after what the instruction did before it (R172):
PRN's and PRA's event stays in `OUT`, and HLT's `HALTED` stays. DIV, PUSH and POP are taken where they reach ADVANCE. What
the raise leaves, and that the address of ADVANCE and of the fetch is `PC`, is log entry 2; the next state, log entry 1. -/
def Obligations.AddressOverflowUnderFaultSetting : Prop :=
  (∀ (s : State) (a : Byte) (k : Nat), s.addrOverflow = .fault →
    (255 < a.toNat + k → ∃ t, inc8 s a k = .error t ∧ RaisesAddressOverflow a s t) ∧
    (a.toNat + k ≤ 255 → ∃ b, inc8 s a k = .ok b ∧ b.toNat = a.toNat + k) ∧
    (a.toNat < k → ∃ t, dec8 s a k = .error t ∧ RaisesAddressOverflow a s t) ∧
    (k ≤ a.toNat → ∃ b, dec8 s a k = .ok b ∧ b.toNat = a.toNat - k)) ∧
  (∀ (i : Instr) (s : State), s.addrOverflow = .fault → i.wellFormed = true →
    i.op ∉ [Op.jmp, .iret, .jeq, .jne, .div, .push, .pop] →
    (s.pc.toNat + i.operands.length + 1 ≤ 255 → ∃ t, exec i s = .next t ∧ t.fault = s.fault) ∧
    (255 < s.pc.toNat + i.operands.length + 1 → i.op ∉ [Op.hlt, .prn, .pra] →
      ∃ t, exec i s = .next t ∧ RaisesAddressOverflow s.pc s t)) ∧
  (∀ (a : Byte) (ra : RegIx) (s : State), Names a ra → s.addrOverflow = .fault →
    (255 < s.pc.toNat + 1 → ∃ t, exec .hlt s = .next t ∧ RaisesAddressOverflow s.pc { s with halted := true } t) ∧
    (255 < s.pc.toNat + 2 → ∃ t, exec (.prn a) s = .next t ∧
      RaisesAddressOverflow s.pc { s with out := s.out ++ [.num (s.reg ra)] } t) ∧
    (255 < s.pc.toNat + 2 → ∃ t, exec (.pra a) s = .next t ∧
      RaisesAddressOverflow s.pc { s with out := s.out ++ [.chr (s.reg ra)] } t)) ∧
  (∀ (a b : Byte) (ra rb : RegIx) (s : State), Names a ra → Names b rb → s.addrOverflow = .fault →
    (s.reg rb ≠ 0#8 → 255 < s.pc.toNat + 3 → ∃ t, exec (.div a b) s = .next t ∧ RaisesAddressOverflow s.pc s t) ∧
    (s.reg rb ≠ 0#8 → s.pc.toNat + 3 ≤ 255 → ∃ t, exec (.div a b) s = .next t ∧ t.fault = s.fault) ∧
    (s.reg rSP ≠ 0#8 → 255 < s.pc.toNat + 2 → ∃ t, exec (.push a) s = .next t ∧ RaisesAddressOverflow s.pc s t) ∧
    (s.reg rSP ≠ 0#8 → s.pc.toNat + 2 ≤ 255 → ∃ t, exec (.push a) s = .next t ∧ t.fault = s.fault) ∧
    (s.reg rSP ≠ 0xFF#8 → 255 < s.pc.toNat + 2 → ∃ t, exec (.pop a) s = .next t ∧ RaisesAddressOverflow s.pc s t) ∧
    (s.reg rSP ≠ 0xFF#8 → s.pc.toNat + 2 ≤ 255 → ∃ t, exec (.pop a) s = .next t ∧ t.fault = s.fault)) ∧
  (∀ (i : Instr) (a : Byte) (ra : RegIx) (s : State), Names a ra → s.addrOverflow = .fault →
    (i = .jeq a ∧ s.fl.getLsbD 0 = false) ∨ (i = .jne a ∧ s.fl.getLsbD 0 = true) →
    (255 < s.pc.toNat + 2 → ∃ t, exec i s = .next t ∧ RaisesAddressOverflow s.pc s t) ∧
    (s.pc.toNat + 2 ≤ 255 → ∃ t, exec i s = .next t ∧ t.fault = s.fault)) ∧
  (∀ (s p : State) (i : Instr) (rest : List Byte), s.Running → poll s = .ok p →
    decode (fetchBytes p) = .ok (i, rest) → p.addrOverflow = .fault →
    (255 < p.pc.toNat + i.operands.length → ∃ t, step s = .next t ∧ RaisesAddressOverflow p.pc p t) ∧
    (p.pc.toNat + i.operands.length ≤ 255 → step s = exec i p))

/-! ### Who writes what, over all instructions -/

/-- 10_state.md R26 (with the spec's C4): only CMP and IRET write `FL`; POLL never does. An `AddressOverflow` is left out: it
ends the run with `FL` unspecified (R172, log entry 2). -/
def Obligations.OnlyCmpAndIretWriteFlags : Prop :=
  (∀ (i : Instr) (s t : State), exec i s = .next t → ¬t.Overflowed → t.fl ≠ s.fl → i.op = .cmp ∨ i.op = .iret) ∧
  (∀ s p : State, poll s = .ok p → p.fl = s.fl)

/-- 10_state.md R27: among instructions only IRET writes `IE`, and it writes 1; POLL can only clear it, also where its interrupt
entry raises `AddressOverflow` (R172). -/
def Obligations.OnlyIretSetsInterruptEnable : Prop :=
  (∀ (i : Instr) (s t : State), exec i s = .next t → t.ie ≠ s.ie → i = .iret ∧ t.ie = true) ∧
  (∀ s p : State, poll s = .ok p → p.ie = true → s.ie = true) ∧
  (∀ s t : State, poll s = .error t → s.ie = true ∧ t.ie = false)

/-- 20_memory.md R66 and 42_load_immediate.md R131 (derived there): the only store an instruction makes is PUSH's, to the cell
below `SP`. An `AddressOverflow` is left out: it ends the run with memory unspecified (R172, log entry 2). -/
def Obligations.OnlyPushStores : Prop :=
  ∀ (i : Instr) (s t : State) (b : Byte), exec i s = .next t → ¬t.Overflowed → t.load b ≠ s.load b →
    i.op = .push ∧ b = s.reg rSP - 1#8

/-- `OUT` is append-only and a cycle appends at most one event (00_scope.md R12, the spec's decision D18), whether or not it
raises a fault. -/
def Obligations.OutIsAppendOnly : Prop :=
  ∀ s t : State, step s = .next t → ∃ l : List OutEvent, t.out = s.out ++ l ∧ l.length ≤ 1

/-- 10_state.md R30: the halt operation sets `HALTED`; nothing clears it and nothing else sets it. -/
def Obligations.OnlyHltHalts : Prop :=
  (∀ (i : Instr) (s t : State), exec i s = .next t → t.halted ≠ s.halted → i = .hlt ∧ t.halted = true) ∧
  (∀ s t : State, s.halted = true → step s = .next t → t.halted = true)

/-! ### The invariant -/

/-- Every step keeps the invariant: memory in canonical form over the 256 cells (log entry 8); a recorded fault names the
address `PC` holds (R171), is code 4 only under `ADDR_OVERFLOW = fault` (R170), and in a halted core is code 4 (log entry 2). -/
def Obligations.InvariantKeptByEveryStep : Prop :=
  ∀ s t : State, s.Inv → step s = .next t → t.Inv

/-- The invariant holds after reset. -/
def Obligations.InvariantAtReset : Prop := State.reset.Inv

/-! ### Encoding -/

/-- Decode and encode agree: decoding the encoding of any instruction gives it back, with the bytes after it left over; and
whatever bytes decode to an instruction begin with exactly its encoding, so no bit is dropped (30_encoding.md R70, R75,
R78; the byte values are the spec's decision D1). -/
def Obligations.DecodeEncodeAgree : Prop :=
  (∀ (i : Instr) (rest : List Byte), decode (encode i ++ rest) = .ok (i, rest)) ∧
  (∀ (bytes rest : List Byte) (i : Instr), decode bytes = .ok (i, rest) → bytes = encode i ++ rest)

/-- Words written out from the encodings of 30_encoding.md R78 (decision D1) and 95_test_vectors.md decode to the instruction
they stand for: one of each family. -/
def Obligations.WrittenOutWordsDecode : Prop :=
  decode [0b00000001#8] = .ok (.hlt, []) ∧ decode [0b00010011#8] = .ok (.iret, []) ∧
    decode [0b01000101#8, 0b00000011#8] = .ok (.push 3#8, []) ∧
    decode [0b01010100#8, 0b00000010#8] = .ok (.jmp 2#8, []) ∧
    decode [0b01000111#8, 0b00000000#8] = .ok (.prn 0#8, []) ∧
    decode [0b10000010#8, 0b00000000#8, 0b00001000#8] = .ok (.ldi 0#8 8#8, []) ∧
    decode [0b10100000#8, 0b00000000#8, 0b00000001#8] = .ok (.add 0#8 1#8, [])

/-- 30_encoding.md R80 (byte values: decision D1): exactly the 21 bytes of the mapping are legal opcodes; every other first
byte is refused as that byte, whatever follows. -/
def Obligations.ExactlyTwentyOneOpcodes : Prop :=
  ∀ (b : Byte) (rest : List Byte), decode (b :: rest) = .error (.invalidOpcode b) ↔ b.toNat ∉
    [0x01, 0x13, 0x45, 0x46, 0x47, 0x48, 0x54, 0x55, 0x56, 0x65, 0x66, 0x82, 0xA0, 0xA1, 0xA2, 0xA3, 0xA7, 0xA8,
     0xAA, 0xAB, 0xAC]

/-- The structure bits of the opcode byte (30_encoding.md R71, R79; C1): bits 7:6 plus 1 is the instruction's length in bytes,
and bit 4 is set for exactly the four operations that load `PC`. -/
def Obligations.WidthAndSetsPcBits : Prop :=
  ∀ i : Instr, (encode i).length = (i.op.code.toNat >>> 6) % 4 + 1 ∧ opWidth i.op.code = (encode i).length ∧
    (opSetsPc i.op.code = true ↔ i.op ∈ [Op.iret, .jmp, .jeq, .jne])

/-- The model's own convention of placing a table word (log entry 6): the very next step of any state with the word placed runs
exactly the instruction the decoder reads from it, on the state the poll's two sources leave (it enters no interrupt). -/
def Obligations.PlacedWordRunsNext : Prop :=
  ∀ (s : State) (nbits w : Nat) (i : Instr), decodeTableWord nbits w = some i →
    (s.addrOverflow = .wrap ∨ s.pc.toNat + i.operands.length ≤ 255) →
    step (s.withFetchWord nbits w) = exec i (pollSources (s.withFetchWord nbits w))
end

