-- ==== Sys2Proof/Laws/State.lean ====
section
/-! SUPPORT. What each update of a state does to each field, and to the two reads (of a register, of a cell): one small
lemma each, so that no proof unfolds a record update. -/

namespace Sys2Proof.Machine

@[simp] theorem State.setReg_regs (s : State) (r : RegIx) (v : Byte) : (s.setReg r v).regs = s.regs.set r.val v := rfl
@[simp] theorem State.setReg_pc (s : State) (r : RegIx) (v : Byte) : (s.setReg r v).pc = s.pc := rfl
@[simp] theorem State.setReg_fl (s : State) (r : RegIx) (v : Byte) : (s.setReg r v).fl = s.fl := rfl
@[simp] theorem State.setReg_ie (s : State) (r : RegIx) (v : Byte) : (s.setReg r v).ie = s.ie := rfl
@[simp] theorem State.setReg_halted (s : State) (r : RegIx) (v : Byte) : (s.setReg r v).halted = s.halted := rfl
@[simp] theorem State.setReg_fault (s : State) (r : RegIx) (v : Byte) : (s.setReg r v).fault = s.fault := rfl
@[simp] theorem State.setReg_timerLast (s : State) (r : RegIx) (v : Byte) : (s.setReg r v).timerLast = s.timerLast := rfl
@[simp] theorem State.setReg_mem (s : State) (r : RegIx) (v : Byte) : (s.setReg r v).mem = s.mem := rfl
@[simp] theorem State.setReg_out (s : State) (r : RegIx) (v : Byte) : (s.setReg r v).out = s.out := rfl
@[simp] theorem State.setReg_addrOverflow (s : State) (r : RegIx) (v : Byte) : (s.setReg r v).addrOverflow = s.addrOverflow := rfl
@[simp] theorem State.setReg_extIrqParam (s : State) (r : RegIx) (v : Byte) : (s.setReg r v).extIrqParam = s.extIrqParam := rfl
@[simp] theorem State.setReg_inputs (s : State) (r : RegIx) (v : Byte) : (s.setReg r v).inputs = s.inputs := rfl
@[simp] theorem State.setReg_polls (s : State) (r : RegIx) (v : Byte) : (s.setReg r v).polls = s.polls := rfl
@[simp] theorem State.setReg_load (s : State) (r : RegIx) (v : Byte) (c : Byte) : (s.setReg r v).load c = s.load c := rfl

@[simp] theorem State.store_regs (s : State) (a v : Byte) : (s.store a v).regs = s.regs := rfl
@[simp] theorem State.store_pc (s : State) (a v : Byte) : (s.store a v).pc = s.pc := rfl
@[simp] theorem State.store_fl (s : State) (a v : Byte) : (s.store a v).fl = s.fl := rfl
@[simp] theorem State.store_ie (s : State) (a v : Byte) : (s.store a v).ie = s.ie := rfl
@[simp] theorem State.store_halted (s : State) (a v : Byte) : (s.store a v).halted = s.halted := rfl
@[simp] theorem State.store_fault (s : State) (a v : Byte) : (s.store a v).fault = s.fault := rfl
@[simp] theorem State.store_timerLast (s : State) (a v : Byte) : (s.store a v).timerLast = s.timerLast := rfl
@[simp] theorem State.store_mem (s : State) (a v : Byte) : (s.store a v).mem = Memory.write s.mem a.toNat v := rfl
@[simp] theorem State.store_out (s : State) (a v : Byte) : (s.store a v).out = s.out := rfl
@[simp] theorem State.store_addrOverflow (s : State) (a v : Byte) : (s.store a v).addrOverflow = s.addrOverflow := rfl
@[simp] theorem State.store_extIrqParam (s : State) (a v : Byte) : (s.store a v).extIrqParam = s.extIrqParam := rfl
@[simp] theorem State.store_inputs (s : State) (a v : Byte) : (s.store a v).inputs = s.inputs := rfl
@[simp] theorem State.store_polls (s : State) (a v : Byte) : (s.store a v).polls = s.polls := rfl
@[simp] theorem State.store_reg (s : State) (a v : Byte) (k : RegIx) : (s.store a v).reg k = s.reg k := rfl

@[simp] theorem State.setPc_regs (s : State) (v : Byte) : (s.setPc v).regs = s.regs := rfl
@[simp] theorem State.setPc_pc (s : State) (v : Byte) : (s.setPc v).pc = v := rfl
@[simp] theorem State.setPc_fl (s : State) (v : Byte) : (s.setPc v).fl = s.fl := rfl
@[simp] theorem State.setPc_ie (s : State) (v : Byte) : (s.setPc v).ie = s.ie := rfl
@[simp] theorem State.setPc_halted (s : State) (v : Byte) : (s.setPc v).halted = s.halted := rfl
@[simp] theorem State.setPc_fault (s : State) (v : Byte) : (s.setPc v).fault = s.fault := rfl
@[simp] theorem State.setPc_timerLast (s : State) (v : Byte) : (s.setPc v).timerLast = s.timerLast := rfl
@[simp] theorem State.setPc_mem (s : State) (v : Byte) : (s.setPc v).mem = s.mem := rfl
@[simp] theorem State.setPc_out (s : State) (v : Byte) : (s.setPc v).out = s.out := rfl
@[simp] theorem State.setPc_addrOverflow (s : State) (v : Byte) : (s.setPc v).addrOverflow = s.addrOverflow := rfl
@[simp] theorem State.setPc_extIrqParam (s : State) (v : Byte) : (s.setPc v).extIrqParam = s.extIrqParam := rfl
@[simp] theorem State.setPc_inputs (s : State) (v : Byte) : (s.setPc v).inputs = s.inputs := rfl
@[simp] theorem State.setPc_polls (s : State) (v : Byte) : (s.setPc v).polls = s.polls := rfl
@[simp] theorem State.setPc_reg (s : State) (v : Byte) (k : RegIx) : (s.setPc v).reg k = s.reg k := rfl
@[simp] theorem State.setPc_load (s : State) (v : Byte) (c : Byte) : (s.setPc v).load c = s.load c := rfl

@[simp] theorem State.setFl_regs (s : State) (v : Byte) : (s.setFl v).regs = s.regs := rfl
@[simp] theorem State.setFl_pc (s : State) (v : Byte) : (s.setFl v).pc = s.pc := rfl
@[simp] theorem State.setFl_fl (s : State) (v : Byte) : (s.setFl v).fl = v := rfl
@[simp] theorem State.setFl_ie (s : State) (v : Byte) : (s.setFl v).ie = s.ie := rfl
@[simp] theorem State.setFl_halted (s : State) (v : Byte) : (s.setFl v).halted = s.halted := rfl
@[simp] theorem State.setFl_fault (s : State) (v : Byte) : (s.setFl v).fault = s.fault := rfl
@[simp] theorem State.setFl_timerLast (s : State) (v : Byte) : (s.setFl v).timerLast = s.timerLast := rfl
@[simp] theorem State.setFl_mem (s : State) (v : Byte) : (s.setFl v).mem = s.mem := rfl
@[simp] theorem State.setFl_out (s : State) (v : Byte) : (s.setFl v).out = s.out := rfl
@[simp] theorem State.setFl_addrOverflow (s : State) (v : Byte) : (s.setFl v).addrOverflow = s.addrOverflow := rfl
@[simp] theorem State.setFl_extIrqParam (s : State) (v : Byte) : (s.setFl v).extIrqParam = s.extIrqParam := rfl
@[simp] theorem State.setFl_inputs (s : State) (v : Byte) : (s.setFl v).inputs = s.inputs := rfl
@[simp] theorem State.setFl_polls (s : State) (v : Byte) : (s.setFl v).polls = s.polls := rfl
@[simp] theorem State.setFl_reg (s : State) (v : Byte) (k : RegIx) : (s.setFl v).reg k = s.reg k := rfl
@[simp] theorem State.setFl_load (s : State) (v : Byte) (c : Byte) : (s.setFl v).load c = s.load c := rfl

@[simp] theorem State.setIe_regs (s : State) (b : Bool) : (s.setIe b).regs = s.regs := rfl
@[simp] theorem State.setIe_pc (s : State) (b : Bool) : (s.setIe b).pc = s.pc := rfl
@[simp] theorem State.setIe_fl (s : State) (b : Bool) : (s.setIe b).fl = s.fl := rfl
@[simp] theorem State.setIe_ie (s : State) (b : Bool) : (s.setIe b).ie = b := rfl
@[simp] theorem State.setIe_halted (s : State) (b : Bool) : (s.setIe b).halted = s.halted := rfl
@[simp] theorem State.setIe_fault (s : State) (b : Bool) : (s.setIe b).fault = s.fault := rfl
@[simp] theorem State.setIe_timerLast (s : State) (b : Bool) : (s.setIe b).timerLast = s.timerLast := rfl
@[simp] theorem State.setIe_mem (s : State) (b : Bool) : (s.setIe b).mem = s.mem := rfl
@[simp] theorem State.setIe_out (s : State) (b : Bool) : (s.setIe b).out = s.out := rfl
@[simp] theorem State.setIe_addrOverflow (s : State) (b : Bool) : (s.setIe b).addrOverflow = s.addrOverflow := rfl
@[simp] theorem State.setIe_extIrqParam (s : State) (b : Bool) : (s.setIe b).extIrqParam = s.extIrqParam := rfl
@[simp] theorem State.setIe_inputs (s : State) (b : Bool) : (s.setIe b).inputs = s.inputs := rfl
@[simp] theorem State.setIe_polls (s : State) (b : Bool) : (s.setIe b).polls = s.polls := rfl
@[simp] theorem State.setIe_reg (s : State) (b : Bool) (k : RegIx) : (s.setIe b).reg k = s.reg k := rfl
@[simp] theorem State.setIe_load (s : State) (b : Bool) (c : Byte) : (s.setIe b).load c = s.load c := rfl

@[simp] theorem State.setHalted_regs (s : State) : (s.setHalted).regs = s.regs := rfl
@[simp] theorem State.setHalted_pc (s : State) : (s.setHalted).pc = s.pc := rfl
@[simp] theorem State.setHalted_fl (s : State) : (s.setHalted).fl = s.fl := rfl
@[simp] theorem State.setHalted_ie (s : State) : (s.setHalted).ie = s.ie := rfl
@[simp] theorem State.setHalted_halted (s : State) : (s.setHalted).halted = true := rfl
@[simp] theorem State.setHalted_fault (s : State) : (s.setHalted).fault = s.fault := rfl
@[simp] theorem State.setHalted_timerLast (s : State) : (s.setHalted).timerLast = s.timerLast := rfl
@[simp] theorem State.setHalted_mem (s : State) : (s.setHalted).mem = s.mem := rfl
@[simp] theorem State.setHalted_out (s : State) : (s.setHalted).out = s.out := rfl
@[simp] theorem State.setHalted_addrOverflow (s : State) : (s.setHalted).addrOverflow = s.addrOverflow := rfl
@[simp] theorem State.setHalted_extIrqParam (s : State) : (s.setHalted).extIrqParam = s.extIrqParam := rfl
@[simp] theorem State.setHalted_inputs (s : State) : (s.setHalted).inputs = s.inputs := rfl
@[simp] theorem State.setHalted_polls (s : State) : (s.setHalted).polls = s.polls := rfl
@[simp] theorem State.setHalted_reg (s : State) (k : RegIx) : (s.setHalted).reg k = s.reg k := rfl
@[simp] theorem State.setHalted_load (s : State) (c : Byte) : (s.setHalted).load c = s.load c := rfl

@[simp] theorem State.setFault_regs (s : State) (f : FaultRecord) : (s.setFault f).regs = s.regs := rfl
@[simp] theorem State.setFault_pc (s : State) (f : FaultRecord) : (s.setFault f).pc = s.pc := rfl
@[simp] theorem State.setFault_fl (s : State) (f : FaultRecord) : (s.setFault f).fl = s.fl := rfl
@[simp] theorem State.setFault_ie (s : State) (f : FaultRecord) : (s.setFault f).ie = s.ie := rfl
@[simp] theorem State.setFault_halted (s : State) (f : FaultRecord) : (s.setFault f).halted = s.halted := rfl
@[simp] theorem State.setFault_fault (s : State) (f : FaultRecord) : (s.setFault f).fault = some f := rfl
@[simp] theorem State.setFault_timerLast (s : State) (f : FaultRecord) : (s.setFault f).timerLast = s.timerLast := rfl
@[simp] theorem State.setFault_mem (s : State) (f : FaultRecord) : (s.setFault f).mem = s.mem := rfl
@[simp] theorem State.setFault_out (s : State) (f : FaultRecord) : (s.setFault f).out = s.out := rfl
@[simp] theorem State.setFault_addrOverflow (s : State) (f : FaultRecord) : (s.setFault f).addrOverflow = s.addrOverflow := rfl
@[simp] theorem State.setFault_extIrqParam (s : State) (f : FaultRecord) : (s.setFault f).extIrqParam = s.extIrqParam := rfl
@[simp] theorem State.setFault_inputs (s : State) (f : FaultRecord) : (s.setFault f).inputs = s.inputs := rfl
@[simp] theorem State.setFault_polls (s : State) (f : FaultRecord) : (s.setFault f).polls = s.polls := rfl
@[simp] theorem State.setFault_reg (s : State) (f : FaultRecord) (k : RegIx) : (s.setFault f).reg k = s.reg k := rfl
@[simp] theorem State.setFault_load (s : State) (f : FaultRecord) (c : Byte) : (s.setFault f).load c = s.load c := rfl

@[simp] theorem State.setTimerLast_regs (s : State) (t : Nat) : (s.setTimerLast t).regs = s.regs := rfl
@[simp] theorem State.setTimerLast_pc (s : State) (t : Nat) : (s.setTimerLast t).pc = s.pc := rfl
@[simp] theorem State.setTimerLast_fl (s : State) (t : Nat) : (s.setTimerLast t).fl = s.fl := rfl
@[simp] theorem State.setTimerLast_ie (s : State) (t : Nat) : (s.setTimerLast t).ie = s.ie := rfl
@[simp] theorem State.setTimerLast_halted (s : State) (t : Nat) : (s.setTimerLast t).halted = s.halted := rfl
@[simp] theorem State.setTimerLast_fault (s : State) (t : Nat) : (s.setTimerLast t).fault = s.fault := rfl
@[simp] theorem State.setTimerLast_timerLast (s : State) (t : Nat) : (s.setTimerLast t).timerLast = t := rfl
@[simp] theorem State.setTimerLast_mem (s : State) (t : Nat) : (s.setTimerLast t).mem = s.mem := rfl
@[simp] theorem State.setTimerLast_out (s : State) (t : Nat) : (s.setTimerLast t).out = s.out := rfl
@[simp] theorem State.setTimerLast_addrOverflow (s : State) (t : Nat) : (s.setTimerLast t).addrOverflow = s.addrOverflow := rfl
@[simp] theorem State.setTimerLast_extIrqParam (s : State) (t : Nat) : (s.setTimerLast t).extIrqParam = s.extIrqParam := rfl
@[simp] theorem State.setTimerLast_inputs (s : State) (t : Nat) : (s.setTimerLast t).inputs = s.inputs := rfl
@[simp] theorem State.setTimerLast_polls (s : State) (t : Nat) : (s.setTimerLast t).polls = s.polls := rfl
@[simp] theorem State.setTimerLast_reg (s : State) (t : Nat) (k : RegIx) : (s.setTimerLast t).reg k = s.reg k := rfl
@[simp] theorem State.setTimerLast_load (s : State) (t : Nat) (c : Byte) : (s.setTimerLast t).load c = s.load c := rfl

@[simp] theorem State.emit_regs (s : State) (e : OutEvent) : (s.emit e).regs = s.regs := rfl
@[simp] theorem State.emit_pc (s : State) (e : OutEvent) : (s.emit e).pc = s.pc := rfl
@[simp] theorem State.emit_fl (s : State) (e : OutEvent) : (s.emit e).fl = s.fl := rfl
@[simp] theorem State.emit_ie (s : State) (e : OutEvent) : (s.emit e).ie = s.ie := rfl
@[simp] theorem State.emit_halted (s : State) (e : OutEvent) : (s.emit e).halted = s.halted := rfl
@[simp] theorem State.emit_fault (s : State) (e : OutEvent) : (s.emit e).fault = s.fault := rfl
@[simp] theorem State.emit_timerLast (s : State) (e : OutEvent) : (s.emit e).timerLast = s.timerLast := rfl
@[simp] theorem State.emit_mem (s : State) (e : OutEvent) : (s.emit e).mem = s.mem := rfl
@[simp] theorem State.emit_out (s : State) (e : OutEvent) : (s.emit e).out = s.out ++ [e] := rfl
@[simp] theorem State.emit_addrOverflow (s : State) (e : OutEvent) : (s.emit e).addrOverflow = s.addrOverflow := rfl
@[simp] theorem State.emit_extIrqParam (s : State) (e : OutEvent) : (s.emit e).extIrqParam = s.extIrqParam := rfl
@[simp] theorem State.emit_inputs (s : State) (e : OutEvent) : (s.emit e).inputs = s.inputs := rfl
@[simp] theorem State.emit_polls (s : State) (e : OutEvent) : (s.emit e).polls = s.polls := rfl
@[simp] theorem State.emit_reg (s : State) (e : OutEvent) (k : RegIx) : (s.emit e).reg k = s.reg k := rfl
@[simp] theorem State.emit_load (s : State) (e : OutEvent) (c : Byte) : (s.emit e).load c = s.load c := rfl

@[simp] theorem takeInput_regs (s : State) : (takeInput s).regs = s.regs := rfl
@[simp] theorem takeInput_pc (s : State) : (takeInput s).pc = s.pc := rfl
@[simp] theorem takeInput_fl (s : State) : (takeInput s).fl = s.fl := rfl
@[simp] theorem takeInput_ie (s : State) : (takeInput s).ie = s.ie := rfl
@[simp] theorem takeInput_halted (s : State) : (takeInput s).halted = s.halted := rfl
@[simp] theorem takeInput_fault (s : State) : (takeInput s).fault = s.fault := rfl
@[simp] theorem takeInput_timerLast (s : State) : (takeInput s).timerLast = s.timerLast := rfl
@[simp] theorem takeInput_mem (s : State) : (takeInput s).mem = s.mem := rfl
@[simp] theorem takeInput_out (s : State) : (takeInput s).out = s.out := rfl
@[simp] theorem takeInput_addrOverflow (s : State) : (takeInput s).addrOverflow = s.addrOverflow := rfl
@[simp] theorem takeInput_extIrqParam (s : State) : (takeInput s).extIrqParam = s.extIrqParam := rfl
@[simp] theorem takeInput_inputs (s : State) : (takeInput s).inputs = s.inputs.tail := rfl
@[simp] theorem takeInput_polls (s : State) : (takeInput s).polls = s.polls + 1 := rfl
@[simp] theorem takeInput_reg (s : State) (k : RegIx) : (takeInput s).reg k = s.reg k := rfl
@[simp] theorem takeInput_load (s : State) (c : Byte) : (takeInput s).load c = s.load c := rfl

@[simp] theorem overflow_fault (a : Byte) (s : State) : (overflow a s).fault = some (.addressOverflow a s.pc) := rfl
@[simp] theorem overflow_reg (a : Byte) (s : State) (k : RegIx) :
    (overflow a s).reg k = Config.freeRegister s.polls k.val := by simp [overflow, State.reg]
@[simp] theorem overflow_fl (a : Byte) (s : State) : (overflow a s).fl = Config.freeFlags s.polls := rfl
@[simp] theorem overflow_pc (a : Byte) (s : State) : (overflow a s).pc = s.pc := rfl
@[simp] theorem overflow_ie (a : Byte) (s : State) : (overflow a s).ie = s.ie := rfl
@[simp] theorem overflow_halted (a : Byte) (s : State) : (overflow a s).halted = s.halted := rfl
@[simp] theorem overflow_timerLast (a : Byte) (s : State) : (overflow a s).timerLast = s.timerLast := rfl
@[simp] theorem overflow_out (a : Byte) (s : State) : (overflow a s).out = s.out := rfl
@[simp] theorem overflow_addrOverflow (a : Byte) (s : State) : (overflow a s).addrOverflow = s.addrOverflow := rfl
@[simp] theorem overflow_extIrqParam (a : Byte) (s : State) : (overflow a s).extIrqParam = s.extIrqParam := rfl
@[simp] theorem overflow_inputs (a : Byte) (s : State) : (overflow a s).inputs = s.inputs := rfl
@[simp] theorem overflow_polls (a : Byte) (s : State) : (overflow a s).polls = s.polls := rfl

/-- A register read after a register write (R20): the written value there, the old value elsewhere. -/
theorem State.reg_setReg (s : State) (r k : RegIx) (v : Byte) :
    (s.setReg r v).reg k = if k = r then v else s.reg k := by
  have hk : k.val < 8 := k.isLt
  simp only [State.reg, State.setReg, Vector.getElem_set]
  by_cases h : k = r
  · subst h; simp
  · have : ¬ r.val = k.val := fun e => h (Fin.ext e.symm)
    simp [h, this]

@[simp] theorem State.reg_setReg_self (s : State) (r : RegIx) (v : Byte) : (s.setReg r v).reg r = v := by
  simp [State.reg_setReg]

theorem State.reg_setReg_ne (s : State) {r k : RegIx} (v : Byte) (h : k ≠ r) : (s.setReg r v).reg k = s.reg k := by
  simp [State.reg_setReg, h]

end Sys2Proof.Machine
end

