-- ==== Sys2Proof/Laws/Memory.lean ====
section
/-! SUPPORT. The laws of memory (20_memory.md R50, R51): a read after a write, and that every memory operation keeps the
canonical form. -/

namespace Sys2Proof.Machine

theorem Memory.read_filter (m : List Host.Cell) (a b : Nat) :
    Memory.read (m.filter (fun c => c.1 != a)) b = if b = a then Memory.unlisted else Memory.read m b := by
  induction m with
  | nil => simp [Memory.read]
  | cons c m ih =>
    obtain ⟨k, v⟩ := c
    by_cases hk : k = a
    · subst hk
      have hf : ((k, v) :: m).filter (fun c => c.1 != k) = m.filter (fun c => c.1 != k) := by simp
      rw [hf, ih]
      by_cases hb : b = k
      · simp [hb]
      · have hkb : ¬ k = b := fun e => hb e.symm
        simp [hb, Memory.read, hkb]
    · by_cases hb : b = a
      · subst hb
        simp [hk, Memory.read, ih]
      · simp [hk, Memory.read, ih, hb]

theorem Memory.read_insert (m : List Host.Cell) (a : Nat) (v : Byte) (b : Nat)
    (h : ∀ c ∈ m, c.1 ≠ a) :
    Memory.read (Memory.insert m a v) b = if b = a then v else Memory.read m b := by
  induction m with
  | nil => simp [Memory.insert, Memory.read, eq_comm (a := a)]
  | cons c m ih =>
    obtain ⟨k, w⟩ := c
    have hk : k ≠ a := h (k, w) (by simp)
    have ih := ih fun c hc => h c (by simp [hc])
    by_cases hlt : k < a
    · simp only [Memory.insert, hlt, if_true, Memory.read, ih]
      by_cases hb : b = a
      · subst hb; simp [hk]
      · simp [hb]
    · simp only [Memory.insert, hlt, if_false, Memory.read]
      simp [eq_comm (a := a)]

/-- A read after a write, on the list of cells: the written byte there, the old byte elsewhere (R51). -/
theorem Memory.read_write (m : List Host.Cell) (a : Nat) (v : Byte) (b : Nat) :
    Memory.read (Memory.write m a v) b = if b = a then v else Memory.read m b := by
  unfold Memory.write
  by_cases hv : v = Memory.unlisted
  · simp [hv, Memory.read_filter]
  · rw [if_neg hv, Memory.read_insert _ _ _ _ (by simp)]
    by_cases hb : b = a <;> simp [hb, Memory.read_filter]

/-- A byte read after a byte store (R51). -/
theorem State.load_store (s : State) (a v b : Byte) :
    (s.store a v).load b = if b = a then v else s.load b := by
  simp only [State.load, State.store, Memory.read_write, BitVec.toNat_inj]

@[simp] theorem State.load_store_self (s : State) (a v : Byte) : (s.store a v).load a = v := by
  simp [State.load_store]

theorem State.load_store_ne (s : State) {a b : Byte} (v : Byte) (h : b ≠ a) : (s.store a v).load b = s.load b := by
  simp [State.load_store, h]

theorem Memory.wfFrom_mono {lo lo' : Nat} (h : lo' ≤ lo) (m : List Host.Cell) (hm : Memory.wfFrom lo m = true) :
    Memory.wfFrom lo' m = true := by
  cases m with
  | nil => rfl
  | cons c m =>
    obtain ⟨k, v⟩ := c
    simp only [Memory.wfFrom, Bool.and_eq_true, decide_eq_true_eq] at hm ⊢
    exact ⟨⟨⟨h.trans hm.1.1.1, hm.1.1.2⟩, hm.1.2⟩, hm.2⟩

theorem Memory.wfFrom_filter (a : Nat) (m : List Host.Cell) (lo : Nat) (hm : Memory.wfFrom lo m = true) :
    Memory.wfFrom lo (m.filter (fun c => c.1 != a)) = true := by
  induction m generalizing lo with
  | nil => rfl
  | cons c m ih =>
    obtain ⟨k, v⟩ := c
    simp only [Memory.wfFrom, Bool.and_eq_true, decide_eq_true_eq] at hm
    have hrec := ih (k + 1) hm.2
    by_cases hk : k = a
    · simpa [hk] using Memory.wfFrom_mono (Nat.le_succ_of_le hm.1.1.1) _ hrec
    · have hf : ((k, v) :: m).filter (fun c => c.1 != a) = (k, v) :: m.filter (fun c => c.1 != a) := by simp [hk]
      rw [hf]
      simp only [Memory.wfFrom, Bool.and_eq_true, decide_eq_true_eq]
      exact ⟨hm.1, hrec⟩

theorem Memory.wfFrom_insert (a : Nat) (v : Byte) (ha : a < 256) (hv : v ≠ Memory.unlisted) (m : List Host.Cell)
    (lo : Nat) (hlo : lo ≤ a) (hne : ∀ c ∈ m, c.1 ≠ a) (hm : Memory.wfFrom lo m = true) :
    Memory.wfFrom lo (Memory.insert m a v) = true := by
  induction m generalizing lo with
  | nil => simp [Memory.insert, Memory.wfFrom, hlo, ha, hv]
  | cons c m ih =>
    obtain ⟨k, w⟩ := c
    have hk : k ≠ a := hne (k, w) (by simp)
    simp only [Memory.wfFrom, Bool.and_eq_true, decide_eq_true_eq] at hm
    by_cases hlt : k < a
    · simp only [Memory.insert, hlt, if_true, Memory.wfFrom, Bool.and_eq_true, decide_eq_true_eq]
      exact ⟨hm.1, ih (k + 1) hlt (fun c hc => hne c (by simp [hc])) hm.2⟩
    · have hak : a + 1 ≤ k := by omega
      simp only [Memory.insert, hlt, if_false, Memory.wfFrom, Bool.and_eq_true, decide_eq_true_eq]
      exact ⟨⟨⟨hlo, ha⟩, by simpa using hv⟩, ⟨⟨hak, hm.1.1.2⟩, hm.1.2⟩, hm.2⟩

/-- A write keeps the canonical form. -/
theorem Memory.wf_write (m : List Host.Cell) (a : Byte) (v : Byte) (hm : Memory.wf m = true) :
    Memory.wf (Memory.write m a.toNat v) = true := by
  unfold Memory.wf at *
  unfold Memory.write
  split
  · exact Memory.wfFrom_filter _ _ _ hm
  · next hv =>
    exact Memory.wfFrom_insert _ _ a.isLt hv _ _ (Nat.zero_le _) (by simp) (Memory.wfFrom_filter _ _ _ hm)

/-- A store keeps memory in canonical form. -/
theorem State.wf_store (s : State) (a v : Byte) (h : Memory.wf s.mem = true) :
    Memory.wf (s.store a v).mem = true := Memory.wf_write _ _ _ h

/-- A tabulated memory is in canonical form. -/
theorem Memory.wfFrom_tabulate (f : Nat → Byte) (a n : Nat) (h : a + n ≤ 256) :
    Memory.wfFrom a (Memory.tabulate f a n) = true := by
  induction n generalizing a with
  | zero => rfl
  | succ n ih =>
    have ih := ih (a + 1) (by omega)
    unfold Memory.tabulate
    split
    · exact Memory.wfFrom_mono (Nat.le_succ a) _ ih
    · next hv =>
      simp only [Memory.wfFrom, Bool.and_eq_true, decide_eq_true_eq]
      exact ⟨⟨⟨le_rfl, by omega⟩, by simpa using hv⟩, ih⟩

/-- What a tabulated memory reads as: the function on its range, nothing listed outside. -/
theorem Memory.read_tabulate (f : Nat → Byte) (a n b : Nat) :
    Memory.read (Memory.tabulate f a n) b = if a ≤ b ∧ b < a + n then f b else Memory.unlisted := by
  induction n generalizing a with
  | zero => rw [if_neg (by omega)]; rfl
  | succ n ih =>
    have ih := ih (a + 1)
    unfold Memory.tabulate
    by_cases hb : a = b
    · subst hb
      rw [if_neg (by omega)] at ih
      split <;> simp_all [Memory.read]
    · have hiff : (a + 1 ≤ b ∧ b < a + 1 + n) ↔ (a ≤ b ∧ b < a + (n + 1)) := by omega
      simp only [hiff] at ih
      split <;> simp [Memory.read, hb, ih]

/-- `AddressOverflow` leaves memory in canonical form. -/
theorem wf_overflow (a : Byte) (s : State) : Memory.wf (overflow a s).mem = true :=
  Memory.wfFrom_tabulate _ 0 256 le_rfl

/-- After `AddressOverflow` every cell holds a free value (R172). -/
@[simp] theorem overflow_load (a : Byte) (s : State) (c : Byte) :
    (overflow a s).load c = Config.freeCell s.polls c.toNat := by
  simp only [State.load, overflow, Memory.read_tabulate]
  rw [if_pos ⟨Nat.zero_le _, by have := c.isLt; omega⟩]

/-- Reset memory is in canonical form. -/
theorem State.wf_reset : Memory.wf State.reset.mem = true := rfl

end Sys2Proof.Machine
end

