-- ==== Sys2Proof/Laws/Ops.lean ====
section
/-! SUPPORT. One spec lemma for each shared operation: all it can do, so that proofs cite it instead of unfolding it. -/

namespace Sys2Proof.Machine

/-! ### Operand forms -/

theorem regIndex?_of_names {k : Byte} {r : RegIx} (h : Names k r) : regIndex? k = some r := by
  have hk : k.toNat < 8 := by have := r.isLt; unfold Names at h; omega
  simp only [regIndex?, hk, dite_true, Option.some.injEq]
  exact Fin.ext h

theorem regIndex?_of_gt {k : Byte} (h : 7 < k.toNat) : regIndex? k = none := by
  simp [regIndex?]; omega

/-- Every operand byte names one register or is above 7. -/
theorem names_or_gt (k : Byte) : (∃ r, Names k r) ∨ 7 < k.toNat := by
  by_cases h : k.toNat < 8
  · exact .inl ⟨⟨k.toNat, h⟩, rfl⟩
  · exact .inr (by omega)

theorem withReg_of_names {a : Byte} {r : RegIx} (h : Names a r) (s : State)
    (f : RegIx → Host.Outcome State Fault Refusal) : withReg a s f = f r := by
  simp [withReg, regIndex?_of_names h]

theorem withReg_of_gt {a : Byte} (h : 7 < a.toNat) (s : State)
    (f : RegIx → Host.Outcome State Fault Refusal) : withReg a s f = raise (.registerIndex a s.pc) s := by
  simp [withReg, regIndex?_of_gt h]

/-- All that one register operand can do: go on with its register, or raise the index fault. -/
theorem withReg_cases (a : Byte) (s : State) (f : RegIx → Host.Outcome State Fault Refusal) :
    (∃ r, Names a r ∧ withReg a s f = f r) ∨
      (7 < a.toNat ∧ withReg a s f = .next (s.setFault (.registerIndex a s.pc))) := by
  obtain ⟨r, hr⟩ | h := names_or_gt a
  · exact .inl ⟨r, hr, withReg_of_names hr s f⟩
  · exact .inr ⟨h, withReg_of_gt h s f⟩

/-- All that two register operands can do: go on with both, or raise the index fault of the first bad one (R77). -/
theorem withRegs_cases (a b : Byte) (s : State) (f : RegIx → RegIx → Host.Outcome State Fault Refusal) :
    (∃ ra rb, Names a ra ∧ Names b rb ∧ withRegs a b s f = f ra rb) ∨
      (∃ k, (k = a ∨ k = b) ∧ 7 < k.toNat ∧ withRegs a b s f = .next (s.setFault (.registerIndex k s.pc))) := by
  unfold withRegs
  obtain ⟨ra, ha, e⟩ | ⟨h, e⟩ := withReg_cases a s fun ra => withReg b s fun rb => f ra rb
  · obtain ⟨rb, hb, e'⟩ | ⟨h, e'⟩ := withReg_cases b s fun rb => f ra rb
    · exact .inl ⟨ra, rb, ha, hb, e.trans e'⟩
    · exact .inr ⟨b, .inr rfl, h, e.trans e'⟩
  · exact .inr ⟨a, .inl rfl, h, e⟩

theorem withRegs_of_names {a b : Byte} {ra rb : RegIx} (ha : Names a ra) (hb : Names b rb) (s : State)
    (f : RegIx → RegIx → Host.Outcome State Fault Refusal) : withRegs a b s f = f ra rb := by
  simp only [withRegs, withReg_of_names ha, withReg_of_names hb]

theorem withRegs_of_gt_left {a : Byte} (b : Byte) (h : 7 < a.toNat) (s : State)
    (f : RegIx → RegIx → Host.Outcome State Fault Refusal) :
    withRegs a b s f = .next (s.setFault (.registerIndex a s.pc)) := withReg_of_gt h s _

theorem withRegs_of_gt_right {a b : Byte} (ha : a.toNat ≤ 7) (hb : 7 < b.toNat) (s : State)
    (f : RegIx → RegIx → Host.Outcome State Fault Refusal) :
    withRegs a b s f = .next (s.setFault (.registerIndex b s.pc)) := by
  obtain ⟨r, hr⟩ | h := names_or_gt a
  · rw [withRegs, withReg_of_names hr, withReg_of_gt hb, raise]
  · omega

/-! ### Address arithmetic -/

/-- All that raising `AddressOverflow` does (R170 to R172). -/
theorem overflow_raises (a : Byte) (s : State) : RaisesAddressOverflow a s (overflow a s) :=
  ⟨rfl, rfl, rfl, rfl, rfl, rfl, rfl, rfl, rfl, rfl, wf_overflow a s⟩

theorem overflow_overflowed (a : Byte) (s : State) : (overflow a s).Overflowed := ⟨a, s.pc, rfl⟩

theorem inc8_ok (s : State) (a : Byte) (k : Nat) (h : s.addrOverflow = .wrap ∨ a.toNat + k ≤ 255) :
    inc8 s a k = .ok (a + BitVec.ofNat 8 k) := by
  rw [inc8, if_neg]
  rintro ⟨h1, h2⟩
  obtain h | h := h
  · rw [h] at h1; exact absurd h1 (by decide)
  · omega

theorem dec8_ok (s : State) (a : Byte) (k : Nat) (h : s.addrOverflow = .wrap ∨ k ≤ a.toNat) :
    dec8 s a k = .ok (a - BitVec.ofNat 8 k) := by
  rw [dec8, if_neg]
  rintro ⟨h1, h2⟩
  obtain h | h := h
  · rw [h] at h1; exact absurd h1 (by decide)
  · omega

/-- All that `inc8` can do. -/
theorem inc8_cases (s : State) (a : Byte) (k : Nat) :
    inc8 s a k = .ok (a + BitVec.ofNat 8 k) ∨
      (s.addrOverflow = .fault ∧ 255 < a.toNat + k ∧ inc8 s a k = .error (overflow a s)) := by
  unfold inc8
  split
  · next h => exact .inr ⟨h.1, h.2, rfl⟩
  · exact .inl rfl

/-- All that `dec8` can do. -/
theorem dec8_cases (s : State) (a : Byte) (k : Nat) :
    dec8 s a k = .ok (a - BitVec.ofNat 8 k) ∨
      (s.addrOverflow = .fault ∧ a.toNat < k ∧ dec8 s a k = .error (overflow a s)) := by
  unfold dec8
  split
  · next h => exact .inr ⟨h.1, h.2, rfl⟩
  · exact .inl rfl

/-! ### Push and Pop -/

/-- The state after a Push that raises nothing (R60). -/
def pushed (v : Byte) (s : State) : State := (s.setReg rSP (s.reg rSP - 1#8)).store (s.reg rSP - 1#8) v

/-- The state after a Pop that raises nothing (R61). -/
def popped (s : State) : State := s.setReg rSP (s.reg rSP + 1#8)

/-- All that Push can do. -/
theorem push_cases (v : Byte) (s : State) :
    push v s = .ok (pushed v s) ∨
      (s.addrOverflow = .fault ∧ s.reg rSP = 0#8 ∧ push v s = .error (overflow (s.reg rSP) s)) := by
  obtain h | ⟨h1, h2, h3⟩ := dec8_cases s (s.reg rSP) 1
  · exact .inl (by simp [push, h, pushed])
  · refine .inr ⟨h1, ?_, by simp [push, h3]⟩
    have : (s.reg rSP).toNat = 0 := by omega
    exact BitVec.eq_of_toNat_eq (by simpa using this)

/-- All that Pop can do. -/
theorem pop_cases (s : State) :
    pop s = .ok (s.load (s.reg rSP), popped s) ∨
      (s.addrOverflow = .fault ∧ 255 < (s.reg rSP).toNat + 1 ∧ pop s = .error (overflow (s.reg rSP) s)) := by
  obtain h | ⟨h1, h2, h3⟩ := inc8_cases s (s.reg rSP) 1
  · exact .inl (by simp [pop, h, popped])
  · exact .inr ⟨h1, h2, by simp [pop, h3]⟩

theorem push_ok (v : Byte) (s : State) (h : s.addrOverflow = .wrap ∨ 1 ≤ (s.reg rSP).toNat) :
    push v s = .ok (pushed v s) := by
  simp [push, dec8_ok s _ 1 h, pushed]

theorem pop_ok (s : State) (h : s.addrOverflow = .wrap ∨ (s.reg rSP).toNat + 1 ≤ 255) :
    pop s = .ok (s.load (s.reg rSP), popped s) := by
  simp [pop, inc8_ok s _ 1 h, popped]

/-! ### ADVANCE -/

/-- The common shape of what an instruction leaves of the rest of the state when only `PC` moves. -/
theorem advance_ok (w : Nat) (s : State) (h : CanAdvance w s) :
    advance w false s = .next (s.setPc (s.pc + BitVec.ofNat 8 w)) := by
  simp [advance, inc8_ok s s.pc w h]

/-- ADVANCE past 0xFF under the `fault` setting (R56, R172). -/
theorem advance_overflow (w : Nat) (s : State) (h : s.addrOverflow = .fault) (hn : 255 < s.pc.toNat + w) :
    advance w false s = .next (overflow s.pc s) := by
  simp [advance, inc8, h, hn]

/-- All that ADVANCE can do: leave the state, move `PC` on, or raise `AddressOverflow`. -/
theorem advance_cases (w : Nat) (b : Bool) (s : State) :
    (b = true ∧ advance w b s = .next s) ∨
      (b = false ∧ advance w b s = .next (s.setPc (s.pc + BitVec.ofNat 8 w))) ∨
      (b = false ∧ s.addrOverflow = .fault ∧ 255 < s.pc.toNat + w ∧
        advance w b s = .next (overflow s.pc s)) := by
  cases b with
  | true => exact .inl ⟨rfl, rfl⟩
  | false =>
    obtain h | ⟨h1, h2, h3⟩ := inc8_cases s s.pc w
    · exact .inr (.inl ⟨rfl, by simp [advance, h]⟩)
    · exact .inr (.inr ⟨rfl, h1, h2, by simp [advance, h3]⟩)

/-- A next state of ADVANCE differs from the state before in `PC` at most, or is what raising `AddressOverflow` leaves. -/
theorem advance_next {w : Nat} {b : Bool} {s t : State} (h : advance w b s = .next t) :
    (∃ p, t = s.setPc p) ∨ (b = false ∧ s.addrOverflow = .fault ∧ t = overflow s.pc s) := by
  obtain ⟨-, e⟩ | ⟨-, e⟩ | ⟨hb, hf, -, e⟩ := advance_cases w b s <;> rw [e] at h <;> cases h
  · exact .inl ⟨s.pc, rfl⟩
  · exact .inl ⟨_, rfl⟩
  · exact .inr ⟨hb, hf, rfl⟩

theorem advance_not_refused (w : Nat) (b : Bool) (s : State) (r : Refusal) : advance w b s ≠ .refused r := by
  obtain ⟨-, e⟩ | ⟨-, e⟩ | ⟨-, -, -, e⟩ := advance_cases w b s <;> simp [e]

end Sys2Proof.Machine
end

