-- ==== Sys2Proof/Laws/Stack.lean ====
section
/-! SUPPORT. What a run of pushes and a run of pops do (20_memory.md R60 to R63), and from it what interrupt entry and the
return from it do (60_exceptions.md R186, 45_system_io.md R157). -/

namespace Sys2Proof.Machine

/-! ### Addresses below and above a stack pointer -/

theorem frameAddr_succ (sp : Byte) (k : Nat) : frameAddr (sp - 1#8) k = frameAddr sp (k + 1) := by
  unfold frameAddr
  apply BitVec.eq_of_toNat_eq
  have := sp.isLt
  simp only [BitVec.toNat_sub, BitVec.toNat_ofNat]
  omega

theorem frameAddr_ne (sp : Byte) {j k : Nat} (hj : j < k + 256) (hk : k < j + 256) (h : j ≠ k) :
    frameAddr sp j ≠ frameAddr sp k := by
  unfold frameAddr
  intro e
  have e := congrArg BitVec.toNat e
  have := sp.isLt
  simp only [BitVec.toNat_sub, BitVec.toNat_ofNat] at e
  omega

@[simp] theorem frameAddr_one (sp : Byte) : frameAddr sp 1 = sp - 1#8 := rfl

/-- Popping back over `n` pushed bytes: byte `k` above the new stack pointer is byte `n - k` of the frame. -/
theorem frameAddr_add (sp : Byte) {n k : Nat} (hk : k ≤ n) :
    frameAddr sp n + BitVec.ofNat 8 k = frameAddr sp (n - k) := by
  unfold frameAddr
  apply BitVec.eq_of_toNat_eq
  have := sp.isLt
  simp only [BitVec.toNat_add, BitVec.toNat_sub, BitVec.toNat_ofNat]
  omega

/-! ### A run of pushes -/

/-- The state after pushes that raise nothing. -/
def pushedAll : List Byte → State → State
  | [], s => s
  | v :: vs, s => pushedAll vs (pushed v s)

/-- All that a run of pushes can do. -/
theorem pushAll_cases (vs : List Byte) (s : State) :
    pushAll vs s = .ok (pushedAll vs s) ∨
      (s.addrOverflow = .fault ∧ (s.reg rSP).toNat < vs.length ∧
        pushAll vs s = .error (overflow 0#8 s)) := by
  induction vs generalizing s with
  | nil => exact .inl rfl
  | cons v vs ih =>
    obtain h | ⟨h1, h2, h3⟩ := push_cases v s
    · simp only [pushAll, h, pushedAll, List.length_cons]
      obtain h' | ⟨h1, h2, h3⟩ := ih (pushed v s)
      · exact .inl h'
      · refine .inr ⟨h1, ?_, h3⟩
        simp only [pushed, State.store_reg, State.reg_setReg_self, BitVec.toNat_sub, BitVec.toNat_ofNat] at h2
        have := (s.reg rSP).isLt
        by_cases h0 : (s.reg rSP).toNat = 0
        · omega
        · omega
    · refine .inr ⟨h1, by simp [h2], ?_⟩
      rw [h2] at h3
      simp [pushAll, h3]

theorem pushAll_ok (vs : List Byte) (s : State) (h : s.addrOverflow = .wrap ∨ vs.length ≤ (s.reg rSP).toNat) :
    pushAll vs s = .ok (pushedAll vs s) := by
  obtain e | ⟨h1, h2, -⟩ := pushAll_cases vs s
  · exact e
  · obtain h | h := h
    · rw [h] at h1; exact absurd h1 (by decide)
    · omega

/-- Pushes under the `fault` setting with too little room below `SP` (R56, R62). -/
theorem pushAll_overflow (vs : List Byte) (s : State) (h : s.addrOverflow = .fault)
    (hn : (s.reg rSP).toNat < vs.length) : pushAll vs s = .error (overflow 0#8 s) := by
  induction vs generalizing s with
  | nil => simp at hn
  | cons v vs ih =>
    obtain e | ⟨h1, h2, h3⟩ := push_cases v s
    · simp only [pushAll, e]
      have h0 : (s.reg rSP).toNat ≠ 0 := by
        intro h0
        simp [push, dec8, h, h0] at e
      refine ih (pushed v s) h ?_
      simp only [pushed, State.store_reg, State.reg_setReg_self, BitVec.toNat_sub, BitVec.toNat_ofNat]
      have := (s.reg rSP).isLt
      simp only [List.length_cons] at hn
      omega
    · rw [h2] at h3
      simp [pushAll, h3]

/-- What pushes leave alone: every field but the stack pointer's register and memory. -/
theorem pushedAll_same (vs : List Byte) (s : State) :
    (pushedAll vs s).pc = s.pc ∧ (pushedAll vs s).fl = s.fl ∧ (pushedAll vs s).ie = s.ie ∧
      (pushedAll vs s).out = s.out ∧ SameRun s (pushedAll vs s) ∧
      (∀ r, r ≠ rSP → (pushedAll vs s).reg r = s.reg r) := by
  induction vs generalizing s with
  | nil => simp [pushedAll, SameRun]
  | cons v vs ih =>
    obtain ⟨h1, h2, h3, h4, h5, h6⟩ := ih (pushed v s)
    refine ⟨h1, h2, h3, h4, h5, fun r hr => ?_⟩
    rw [pushedAll, h6 r hr]
    simp [pushed, State.reg_setReg_ne _ _ hr]

theorem pushedAll_sp (vs : List Byte) (s : State) : (pushedAll vs s).reg rSP = frameAddr (s.reg rSP) vs.length := by
  induction vs generalizing s with
  | nil => simp [pushedAll, frameAddr]
  | cons v vs ih => simp [pushedAll, ih, pushed, frameAddr_succ]

/-- A cell outside the pushed ones keeps its byte. -/
theorem pushedAll_load_outside (vs : List Byte) (s : State) (b : Byte)
    (h : ∀ k, 1 ≤ k → k ≤ vs.length → b ≠ frameAddr (s.reg rSP) k) : (pushedAll vs s).load b = s.load b := by
  induction vs generalizing s with
  | nil => rfl
  | cons v vs ih =>
    rw [pushedAll, ih (pushed v s)]
    · have h1 : b ≠ s.reg rSP - 1#8 := h 1 (by omega) (by simp)
      simp [pushed, State.load_store_ne _ _ h1]
    · intro k h1 h2
      have := h (k + 1) (by omega) (by simpa using h2)
      simpa [pushed, frameAddr_succ] using this

/-- Byte `k` of the pushed ones stands `k + 1` below the old stack pointer (R187). -/
theorem pushedAll_load (vs : List Byte) (s : State) (hn : vs.length ≤ 256) (k : Nat) (hk : k < vs.length) :
    (pushedAll vs s).load (frameAddr (s.reg rSP) (k + 1)) = vs[k] := by
  induction vs generalizing s k with
  | nil => simp at hk
  | cons v vs ih =>
    simp only [List.length_cons] at hn hk
    cases k with
    | zero =>
      rw [pushedAll, pushedAll_load_outside]
      · simp [pushed]
      · intro j h1 h2
        simp only [pushed, State.store_reg, State.reg_setReg_self, frameAddr_succ]
        exact frameAddr_ne _ (by omega) (by omega) (by omega)
    | succ k =>
      have := ih (pushed v s) (by omega) k (by omega)
      simpa [pushedAll, pushed, frameAddr_succ] using this

theorem wf_pushedAll (vs : List Byte) (s : State) (h : Memory.wf s.mem = true) :
    Memory.wf (pushedAll vs s).mem = true := by
  induction vs generalizing s with
  | nil => exact h
  | cons v vs ih => exact ih _ (State.wf_store _ _ _ h)

/-! ### Interrupt entry -/

/-- The state after an entry that raises nothing (R186). -/
def entered (i : RegIx) (s : State) : State :=
  (pushedAll (frameBytes (acknowledge i s)) (acknowledge i s)).setPc
    ((pushedAll (frameBytes (acknowledge i s)) (acknowledge i s)).load (vectorAddr i))

/-- All that interrupt entry can do. -/
theorem interruptEntry_cases (i : RegIx) (s : State) :
    interruptEntry i s = .ok (entered i s) ∨
      (s.addrOverflow = .fault ∧ (s.reg rSP).toNat < 9 ∧
        interruptEntry i s = .error (overflow 0#8 (s.setIe false))) := by
  have hsp : (acknowledge i s).reg rSP = s.reg rSP := by
    simp [acknowledge, State.reg_setReg_ne _ _ (show rSP ≠ rIS by decide)]
  obtain h | ⟨h1, h2, h3⟩ := pushAll_cases (frameBytes (acknowledge i s)) (acknowledge i s)
  · exact .inl (by simp [interruptEntry, h, entered])
  · refine .inr ⟨h1, ?_, ?_⟩
    · rw [hsp] at h2; exact h2
    · rw [interruptEntry, h3]
      rfl

theorem interruptEntry_ok (i : RegIx) (s : State) (h : s.addrOverflow = .wrap ∨ 9 ≤ (s.reg rSP).toNat) :
    interruptEntry i s = .ok (entered i s) := by
  obtain e | ⟨h1, h2, -⟩ := interruptEntry_cases i s
  · exact e
  · obtain h | h := h
    · rw [h] at h1; cases h1
    · omega

/-- Interrupt entry under the `fault` setting with fewer than nine cells below `SP` (R172, R186). -/
theorem interruptEntry_overflow (i : RegIx) (s : State) (h : s.addrOverflow = .fault) (hn : (s.reg rSP).toNat < 9) :
    interruptEntry i s = .error (overflow 0#8 (s.setIe false)) := by
  have hsp : (acknowledge i s).reg rSP = s.reg rSP := by
    simp [acknowledge, State.reg_setReg_ne _ _ (show rSP ≠ rIS by decide)]
  have e := pushAll_overflow (frameBytes (acknowledge i s)) (acknowledge i s) h (by rw [hsp]; exact hn)
  rw [interruptEntry, e]
  rfl

/-- All that dispatch can do: nothing, or entry for the first ready line (R184, R186). -/
theorem interruptDispatch_cases (s : State) :
    ((s.ie = false ∨ firstLine s = none) ∧ interruptDispatch s = .ok s) ∨
      (∃ i, s.ie = true ∧ firstLine s = some i ∧ interruptDispatch s = interruptEntry i s) := by
  unfold interruptDispatch
  cases hie : s.ie with
  | false => exact .inl ⟨.inl rfl, rfl⟩
  | true =>
    cases hl : firstLine s with
    | none => exact .inl ⟨.inr rfl, rfl⟩
    | some i => exact .inr ⟨i, rfl, rfl, rfl⟩

/-- A state dispatch goes on with is the state before, or the state after entry for the first ready line. -/
theorem interruptDispatch_ok {s p : State} (h : interruptDispatch s = .ok p) :
    ((s.ie = false ∨ firstLine s = none) ∧ p = s) ∨ (∃ i, s.ie = true ∧ firstLine s = some i ∧ p = entered i s) := by
  obtain ⟨hc, e⟩ | ⟨i, h1, h2, e⟩ := interruptDispatch_cases s <;> rw [e] at h
  · cases h; exact .inl ⟨hc, rfl⟩
  · obtain e' | ⟨-, -, e'⟩ := interruptEntry_cases i s <;> rw [e'] at h <;> cases h
    exact .inr ⟨i, h1, h2, rfl⟩

/-- The first ready line is ready and no lower line is (R185). -/
theorem firstLine_some {s : State} {i : RegIx} (h : firstLine s = some i) :
    lineReady s i = true ∧ ∀ j, j < i → lineReady s j = false := by
  unfold firstLine lines at h
  refine ⟨List.find?_some h, fun j hj => ?_⟩
  simp only [List.find?_cons] at h
  repeat' split at h
  all_goals first
    | (cases h; fin_cases j <;> first | assumption | exact absurd hj (by decide))
    | cases h

theorem firstLine_none {s : State} (h : firstLine s = none) (i : RegIx) : lineReady s i = false := by
  have := List.find?_eq_none.mp h i (by fin_cases i <;> simp [lines])
  simpa using this

/-- The lowest ready line is the one dispatch takes (R185). -/
theorem firstLine_eq {s : State} {i : RegIx} (hi : lineReady s i = true) (hj : ∀ j, j < i → lineReady s j = false) :
    firstLine s = some i := by
  cases h : firstLine s with
  | none => rw [firstLine_none h i] at hi; cases hi
  | some k =>
    obtain ⟨hk, hlow⟩ := firstLine_some h
    rcases lt_trichotomy k i with h' | h' | h'
    · rw [hj k h'] at hk; cases hk
    · rw [h']
    · rw [hlow i h'] at hi; cases hi

theorem lineReady_eq (s : State) (i : RegIx) : lineReady s i = (s.reg rIM &&& s.reg rIS).getLsbD i.val := by
  simp [lineReady]

/-- Dispatch is entry for the line it selects (R185, R186). -/
theorem interruptDispatch_of_selects {s : State} {i : RegIx} (h : Selects s i) :
    interruptDispatch s = interruptEntry i s := by
  obtain ⟨hie, hi, hlow⟩ := h
  have hl : firstLine s = some i :=
    firstLine_eq (by rw [lineReady_eq]; exact hi) fun j hj => by rw [lineReady_eq]; exact hlow j hj
  simp [interruptDispatch, hie, hl]

/-! ### A run of pops -/

/-- The state after `x[r] <- Pop()` for each register of a list, where no pop raises and the list does not name `SP`. -/
def poppedRegs : List RegIx → State → State
  | [], s => s
  | r :: rs, s => poppedRegs rs ((popped s).setReg r (s.load (s.reg rSP)))

theorem popRegs_ok (rs : List RegIx) (s : State) (hr : rSP ∉ rs)
    (h : s.addrOverflow = .wrap ∨ (s.reg rSP).toNat + rs.length ≤ 255) : popRegs rs s = .ok (poppedRegs rs s) := by
  induction rs generalizing s with
  | nil => rfl
  | cons r rs ih =>
    simp only [List.mem_cons, not_or] at hr
    have hp := pop_ok s (h.imp id fun h => by simp only [List.length_cons] at h; omega)
    simp only [popRegs, hp, poppedRegs]
    refine ih _ hr.2 (h.imp id fun h => ?_)
    simp only [List.length_cons] at h
    simp only [popped, State.reg_setReg_ne _ _ hr.1, State.reg_setReg_self, BitVec.toNat_add, BitVec.toNat_ofNat]
    omega

/-- All that the pops of `IRET` leave alone. -/
theorem poppedRegs_same (rs : List RegIx) (s : State) :
    (poppedRegs rs s).pc = s.pc ∧ (poppedRegs rs s).fl = s.fl ∧ (poppedRegs rs s).ie = s.ie ∧
      (poppedRegs rs s).out = s.out ∧ (poppedRegs rs s).mem = s.mem ∧ SameRun s (poppedRegs rs s) := by
  induction rs generalizing s with
  | nil => simp [poppedRegs, SameRun]
  | cons r rs ih => exact ih ((popped s).setReg r (s.load (s.reg rSP)))

/-- What `AddressOverflow` leaves does not depend on the pops before it: registers are unspecified afterwards (R172). -/
theorem overflow_poppedRegs (a : Byte) (rs : List RegIx) (s : State) : overflow a (poppedRegs rs s) = overflow a s := by
  induction rs generalizing s with
  | nil => rfl
  | cons r rs ih => exact ih _

/-- The pops of a register list under the `fault` setting with too little room above `SP`. -/
theorem popRegs_overflow (rs : List RegIx) (s : State) (hr : rSP ∉ rs) (h : s.addrOverflow = .fault)
    (hn : 255 < (s.reg rSP).toNat + rs.length) : popRegs rs s = .error (overflow 255#8 s) := by
  induction rs generalizing s with
  | nil => have := (s.reg rSP).isLt; simp only [List.length_nil] at hn; omega
  | cons r rs ih =>
    simp only [List.mem_cons, not_or] at hr
    obtain e | ⟨-, h2, e⟩ := pop_cases s
    · have h0 : (s.reg rSP).toNat + 1 ≤ 255 := by
        by_contra h0
        have h0 : 255 < (s.reg rSP).toNat + 1 := by omega
        simp [pop, inc8, h, h0] at e
      simp only [popRegs, e]
      refine ih _ hr.2 h ?_
      simp only [popped, State.reg_setReg_ne _ _ hr.1, State.reg_setReg_self, BitVec.toNat_add, BitVec.toNat_ofNat]
      simp only [List.length_cons] at hn
      omega
    · have : s.reg rSP = 255#8 := by
        apply BitVec.eq_of_toNat_eq
        have := (s.reg rSP).isLt
        simp only [BitVec.toNat_ofNat]
        omega
      rw [this] at e
      simp [popRegs, e]

theorem poppedRegs_sp (rs : List RegIx) (s : State) (hr : rSP ∉ rs) :
    (poppedRegs rs s).reg rSP = s.reg rSP + BitVec.ofNat 8 rs.length := by
  induction rs generalizing s with
  | nil => simp [poppedRegs]
  | cons r rs ih =>
    simp only [List.mem_cons, not_or] at hr
    rw [poppedRegs, ih _ hr.2, State.reg_setReg_ne _ _ hr.1, popped, State.reg_setReg_self, List.length_cons]
    apply BitVec.eq_of_toNat_eq
    simp only [BitVec.toNat_add, BitVec.toNat_ofNat]
    omega

/-- The pops of `FL` and `PC` that end an `IRET`, where none raises. -/
def returnedFrom (t : State) : State :=
  (((t.setReg rSP (t.reg rSP + 2#8)).setFl (t.load (t.reg rSP))).setPc (t.load (t.reg rSP + 1#8))).setIe true

/-- The state after an `IRET` whose pops raise nothing (R157). -/
@[irreducible] def returned (s : State) : State := returnedFrom (poppedRegs [6, 5, 4, 3, 2, 1, 0] s)

/-- The end of `returnFromInterrupt`, after its register pops. -/
theorem returnFromInterrupt_of_popRegs {s t : State} (h : popRegs [6, 5, 4, 3, 2, 1, 0] s = .ok t) :
    (t.addrOverflow = .wrap ∨ (t.reg rSP).toNat + 2 ≤ 255 → returnFromInterrupt s = .ok (returnedFrom t)) ∧
      (t.addrOverflow = .fault → 255 < (t.reg rSP).toNat + 2 →
        returnFromInterrupt s = .error (overflow 255#8 t)) := by
  have h255 : ∀ b : Byte, 255 < b.toNat + 1 → b = 255#8 := fun b hb => by
    apply BitVec.eq_of_toNat_eq
    have := b.isLt
    simp only [BitVec.toNat_ofNat]; omega
  have hadd : ∀ b : Byte, b + 1#8 + 1#8 = b + 2#8 := fun b => by rw [BitVec.add_assoc]; rfl
  have hset : ∀ v : Byte, (t.setReg rSP v).setReg rSP (v + 1#8) = t.setReg rSP (v + 1#8) := fun v => by
    simp [State.setReg]
  unfold returnFromInterrupt
  simp only [h]
  obtain e | ⟨h1, h2, e⟩ := pop_cases t
  · simp only [e]
    obtain e' | ⟨h1', h2', e'⟩ := pop_cases ((popped t).setFl (t.load (t.reg rSP)))
    · refine ⟨fun _ => ?_, fun hf hn => ?_⟩
      · rw [e']
        simp only [returnedFrom, popped, State.setFl_reg, State.reg_setReg_self, State.setFl_load, State.setReg_load]
        rw [show t.setReg rSP (t.reg rSP + 2#8) = (t.setReg rSP (t.reg rSP + 1#8)).setReg rSP (t.reg rSP + 1#8 + 1#8) by
          rw [hset, hadd]]
        rfl
      · exfalso
        by_cases h0 : 255 < (t.reg rSP).toNat + 1
        · simp [pop, inc8, hf, h0] at e
        · have h1 : 255 < (t.reg rSP + 1#8).toNat + 1 := by
            simp only [BitVec.toNat_add, BitVec.toNat_ofNat]; omega
          simp only [pop, inc8, State.setFl_addrOverflow, popped, State.setReg_addrOverflow, hf, State.setFl_reg,
            State.reg_setReg_self, h1, and_self, if_true] at e'
          cases e'
    · have hn : 255 < (t.reg rSP + 1#8).toNat + 1 := by
        simpa only [popped, State.setFl_reg, State.reg_setReg_self] using h2'
      refine ⟨fun hc => ?_, fun _ _ => ?_⟩
      · exfalso
        obtain hc | hc := hc
        · rw [show ((popped t).setFl (t.load (t.reg rSP))).addrOverflow = t.addrOverflow from rfl, hc] at h1'
          exact absurd h1' (by decide)
        · simp only [BitVec.toNat_add, BitVec.toNat_ofNat] at hn; omega
      · rw [e', h255 _ h2']
        rfl
  · rw [h255 _ h2] at e
    refine ⟨fun hc => ?_, fun _ _ => by simp [e]⟩
    exfalso
    obtain hc | hc := hc
    · rw [hc] at h1; exact absurd h1 (by decide)
    · omega

theorem poppedRegs_sp_iret (s : State) : (poppedRegs [6, 5, 4, 3, 2, 1, 0] s).reg rSP = s.reg rSP + 7#8 :=
  poppedRegs_sp _ s (by decide)

/-- A register no pop of the list names keeps its value. -/
theorem poppedRegs_reg_notin (rs : List RegIx) (s : State) (r : RegIx) (hr : r ∉ rs) (h : r ≠ rSP) :
    (poppedRegs rs s).reg r = s.reg r := by
  induction rs generalizing s with
  | nil => rfl
  | cons k rs ih =>
    simp only [List.mem_cons, not_or] at hr
    rw [poppedRegs, ih _ hr.2, State.reg_setReg_ne _ _ hr.1, popped, State.reg_setReg_ne _ _ h]

/-- The register popped as number `k` holds the byte `k` above the old stack pointer (R157). -/
theorem poppedRegs_reg (rs : List RegIx) (s : State) (hr : rSP ∉ rs) (hd : rs.Nodup) (k : Nat) (hk : k < rs.length) :
    (poppedRegs rs s).reg rs[k] = s.load (s.reg rSP + BitVec.ofNat 8 k) := by
  induction rs generalizing s k with
  | nil => simp at hk
  | cons r rs ih =>
    simp only [List.mem_cons, not_or] at hr
    simp only [List.nodup_cons] at hd
    cases k with
    | zero =>
      have hne : r ≠ rSP := fun e => hr.1 e.symm
      simp only [List.getElem_cons_zero]
      rw [poppedRegs, poppedRegs_reg_notin _ _ _ hd.1 hne]
      simp
    | succ k =>
      simp only [List.getElem_cons_succ, poppedRegs]
      rw [ih _ hr.2 hd.2 k (by simpa using hk)]
      simp only [State.reg_setReg_ne _ _ hr.1, popped, State.reg_setReg_self, State.setReg_load]
      congr 1
      apply BitVec.eq_of_toNat_eq
      simp only [BitVec.toNat_add, BitVec.toNat_ofNat]
      omega

/-- What `IRET` loads, where its pops raise nothing (R157): `R6` down to `R0`, then `FL`, then `PC`. -/
theorem returned_loads (s : State) :
    (returned s).reg 6 = s.load (s.reg rSP) ∧ (returned s).reg 5 = s.load (s.reg rSP + 1#8) ∧
      (returned s).reg 4 = s.load (s.reg rSP + 2#8) ∧ (returned s).reg 3 = s.load (s.reg rSP + 3#8) ∧
      (returned s).reg 2 = s.load (s.reg rSP + 4#8) ∧ (returned s).reg 1 = s.load (s.reg rSP + 5#8) ∧
      (returned s).reg 0 = s.load (s.reg rSP + 6#8) ∧ (returned s).fl = s.load (s.reg rSP + 7#8) ∧
      (returned s).pc = s.load (s.reg rSP + 8#8) ∧ (returned s).reg rSP = s.reg rSP + 9#8 := by
  have hreg : ∀ r : RegIx, r ≠ rSP → (returned s).reg r = (poppedRegs [6, 5, 4, 3, 2, 1, 0] s).reg r := fun r hr => by
    simp only [returned, returnedFrom, State.setIe_reg, State.setPc_reg, State.setFl_reg, State.reg_setReg_ne _ _ hr]
  have hpop := poppedRegs_reg [6, 5, 4, 3, 2, 1, 0] s (by decide) (by decide)
  have hload : ∀ b, (poppedRegs [6, 5, 4, 3, 2, 1, 0] s).load b = s.load b := fun b => by
    simp only [State.load, (poppedRegs_same [6, 5, 4, 3, 2, 1, 0] s).2.2.2.2.1]
  have hadd : ∀ b c d : Byte, b + c + d = b + (c + d) := BitVec.add_assoc
  refine ⟨?_, ?_, ?_, ?_, ?_, ?_, ?_, ?_, ?_, ?_⟩
  · rw [hreg 6 (by decide)]; simpa using hpop 0 (by decide)
  · rw [hreg 5 (by decide)]; exact hpop 1 (by decide)
  · rw [hreg 4 (by decide)]; exact hpop 2 (by decide)
  · rw [hreg 3 (by decide)]; exact hpop 3 (by decide)
  · rw [hreg 2 (by decide)]; exact hpop 4 (by decide)
  · rw [hreg 1 (by decide)]; exact hpop 5 (by decide)
  · rw [hreg 0 (by decide)]; exact hpop 6 (by decide)
  · simp only [returned, returnedFrom, State.setIe_fl, State.setPc_fl, State.setFl_fl, hload, poppedRegs_sp_iret]
  · simp only [returned, returnedFrom, State.setIe_pc, State.setPc_pc, hload, poppedRegs_sp_iret, hadd]
    rfl
  · simp only [returned, returnedFrom, State.setIe_reg, State.setPc_reg, State.setFl_reg, State.reg_setReg_self,
      poppedRegs_sp_iret, hadd]
    rfl

theorem returnedFrom_same (t : State) :
    (returnedFrom t).ie = true ∧ (returnedFrom t).out = t.out ∧ (returnedFrom t).mem = t.mem ∧
      SameRun t (returnedFrom t) := ⟨rfl, rfl, rfl, rfl, rfl, rfl, rfl, rfl, rfl, rfl⟩

/-- What `IRET` leaves alone (R157): memory, `OUT` and the run's own state; `IE` is set. -/
theorem returned_same (s : State) :
    (returned s).ie = true ∧ (returned s).out = s.out ∧ (returned s).mem = s.mem ∧ SameRun s (returned s) := by
  obtain ⟨-, -, -, h1, h2, h3⟩ := poppedRegs_same [6, 5, 4, 3, 2, 1, 0] s
  unfold returned
  generalize poppedRegs [6, 5, 4, 3, 2, 1, 0] s = t at *
  exact ⟨rfl, h1, h2, h3⟩

/-- The return from an interrupt completes where its nine pops stay inside memory (R157, R56). -/
theorem returnFromInterrupt_ok (s : State) (h : s.addrOverflow = .wrap ∨ (s.reg rSP).toNat + 9 ≤ 255) :
    returnFromInterrupt s = .ok (returned s) := by
  have hpr := popRegs_ok [6, 5, 4, 3, 2, 1, 0] s (by decide)
    (h.imp id fun h => by simp only [List.length_cons, List.length_nil]; omega)
  have hao : (poppedRegs [6, 5, 4, 3, 2, 1, 0] s).addrOverflow = s.addrOverflow :=
    (poppedRegs_same _ s).2.2.2.2.2.2.2.2.1
  rw [returned]
  refine (returnFromInterrupt_of_popRegs hpr).1 (h.imp (fun e => hao.trans e) fun h => ?_)
  rw [poppedRegs_sp_iret]
  simp only [BitVec.toNat_add, BitVec.toNat_ofNat]; omega

/-- The return from an interrupt under the `fault` setting with too little room above `SP` (R157, R172). -/
theorem returnFromInterrupt_overflow (s : State) (h : s.addrOverflow = .fault) (hn : 255 < (s.reg rSP).toNat + 9) :
    returnFromInterrupt s = .error (overflow 255#8 s) := by
  by_cases h7 : 255 < (s.reg rSP).toNat + 7
  · rw [returnFromInterrupt, popRegs_overflow _ s (by decide) h (by simpa using h7)]
  · have hpr := popRegs_ok [6, 5, 4, 3, 2, 1, 0] s (by decide)
      (.inr (by simp only [List.length_cons, List.length_nil]; omega))
    have hsame := poppedRegs_same [6, 5, 4, 3, 2, 1, 0] s
    rw [(returnFromInterrupt_of_popRegs hpr).2 (hsame.2.2.2.2.2.2.2.2.1.trans h), overflow_poppedRegs]
    rw [poppedRegs_sp_iret]
    simp only [BitVec.toNat_add, BitVec.toNat_ofNat]; omega

/-- All that the return from an interrupt can do. -/
theorem returnFromInterrupt_cases (s : State) :
    returnFromInterrupt s = .ok (returned s) ∨
      (s.addrOverflow = .fault ∧ 255 < (s.reg rSP).toNat + 9 ∧
        returnFromInterrupt s = .error (overflow 255#8 s)) := by
  by_cases h : s.addrOverflow = .wrap ∨ (s.reg rSP).toNat + 9 ≤ 255
  · exact .inl (returnFromInterrupt_ok s h)
  · rw [not_or] at h
    have hf : s.addrOverflow = .fault := by cases e : s.addrOverflow <;> simp_all
    exact .inr ⟨hf, by omega, returnFromInterrupt_overflow s hf (by omega)⟩

end Sys2Proof.Machine
end

