-- ==== Sys2Proof/Laws/Exec.lean ====
section
/-! SUPPORT. All that one instruction can do (`exec_cases`), from which the whole-machine statements follow by cases. -/

namespace Sys2Proof.Machine

/-- The effect of an instruction before ADVANCE, by kind of effect. -/
inductive Effect (s : State) : Instr → State → Prop where
  /-- A register is written: LDI, INC, DEC and the two-register operations but CMP. -/
  | write (i : Instr) (r : RegIx) (v : Byte)
      (h : i.op ∈ [Op.inc, .dec, .ldi, .add, .sub, .mul, .div, .and, .or, .xor, .shl]) : Effect s i (s.setReg r v)
  /-- CMP writes `FL`. -/
  | flags (a b v : Byte) : Effect s (.cmp a b) (s.setFl v)
  /-- PUSH. -/
  | push (a v : Byte) : Effect s (.push a) (pushed v s)
  /-- POP. -/
  | pop (a : Byte) (r : RegIx) : Effect s (.pop a) ((popped s).setReg r (s.load (s.reg rSP)))
  /-- A jump, taken or not, changes `PC` only. -/
  | jump (i : Instr) (h : i.op ∈ [Op.jmp, .jeq, .jne]) : Effect s i s
  /-- PRN and PRA emit one event. -/
  | emit (i : Instr) (e : OutEvent) (h : i.op ∈ [Op.prn, .pra]) : Effect s i (s.emit e)
  /-- HLT. -/
  | halt : Effect s .hlt s.setHalted
  /-- IRET. -/
  | ret : Effect s .iret (returned s)

/-- What no effect changes: `FAULT`, `TIMER_LAST`, the launch parameters and the inputs. -/
theorem Effect.same {s : State} {i : Instr} {e : State} (h : Effect s i e) :
    e.fault = s.fault ∧ e.timerLast = s.timerLast ∧ e.addrOverflow = s.addrOverflow ∧
      e.extIrqParam = s.extIrqParam ∧ e.inputs = s.inputs ∧ e.polls = s.polls := by
  cases h with
  | ret => exact (returned_same s).2.2.2.2
  | write | flags | push | pop | jump | emit | halt => exact ⟨rfl, rfl, rfl, rfl, rfl, rfl⟩

/-- The precise fault an instruction can raise (R170): the index fault of one of its operands, or DIV's. -/
def RaisedBy (i : Instr) (s : State) (f : FaultRecord) : Prop :=
  (∃ k ∈ i.regOperands, 7 < k.toNat ∧ f = .registerIndex k s.pc) ∨ (i.op = .div ∧ f = .divideByZero s.pc)

/-- What `exec` can do: raise a precise fault, take effect and advance, or (under the `fault` setting) raise
`AddressOverflow`, before its effect or in the ADVANCE after it. -/
def Does (i : Instr) (s : State) (o : Host.Outcome State Fault Refusal) : Prop :=
  (∃ f, RaisedBy i s f ∧ o = .next (s.setFault f)) ∨ (∃ e p, Effect s i e ∧ o = .next (e.setPc p)) ∨
    (s.addrOverflow = .fault ∧ ∃ e a, (e = s ∨ Effect s i e) ∧ e.pc = s.pc ∧ o = .next (overflow a e))

theorem does_advance {i : Instr} {s e : State} (he : Effect s i e) (w : Nat) (b : Bool)
    (hpc : b = false → e.pc = s.pc) : Does i s (advance w b e) := by
  have ha : e.addrOverflow = s.addrOverflow := he.same.2.2.1
  obtain ⟨-, h⟩ | ⟨-, h⟩ | ⟨hb, h1, -, h⟩ := advance_cases w b e
  · exact .inr (.inl ⟨e, e.pc, he, h⟩)
  · exact .inr (.inl ⟨e, _, he, h⟩)
  · exact .inr (.inr ⟨ha ▸ h1, e, _, .inr he, hpc hb, h⟩)

theorem does_finish {i : Instr} {s e : State} (he : Effect s i e) (o : Op) (hpc : opSetsPc o.code = false → e.pc = s.pc) :
    Does i s (finish o e) := does_advance he _ _ hpc

theorem does_withReg {i : Instr} {s : State} {a : Byte} {f : RegIx → Host.Outcome State Fault Refusal}
    (hf : ∀ r, Names a r → Does i s (f r))
    (ha : a ∈ i.regOperands := by simp [Instr.regOperands, Instr.op, Instr.operands]) : Does i s (withReg a s f) := by
  obtain ⟨r, hr, e⟩ | ⟨h, e⟩ := withReg_cases a s f
  · exact e ▸ hf r hr
  · exact .inl ⟨_, .inl ⟨a, ha, h, rfl⟩, e⟩

theorem does_withRegs {i : Instr} {s : State} {a b : Byte} {f : RegIx → RegIx → Host.Outcome State Fault Refusal}
    (hf : ∀ ra rb, Names a ra → Names b rb → Does i s (f ra rb))
    (ha : a ∈ i.regOperands := by simp [Instr.regOperands, Instr.op, Instr.operands])
    (hb : b ∈ i.regOperands := by simp [Instr.regOperands, Instr.op, Instr.operands]) : Does i s (withRegs a b s f) :=
  does_withReg (fun ra hra => does_withReg (fun rb hrb => hf ra rb hra hrb) hb) ha

theorem does_write {i : Instr} {s : State} (o : Op) (r : RegIx) (v : Byte)
    (ho : i.op ∈ [Op.inc, .dec, .ldi, .add, .sub, .mul, .div, .and, .or, .xor, .shl] := by simp [Instr.op]) :
    Does i s (finish o (s.setReg r v)) := does_finish (.write i r v ho) o fun _ => rfl

theorem does_aluTwo {i : Instr} {s : State} {a b : Byte} (o : Op) (f : Byte → Byte → Byte)
    (ha : a ∈ i.regOperands := by simp [Instr.regOperands, Instr.op, Instr.operands])
    (hb : b ∈ i.regOperands := by simp [Instr.regOperands, Instr.op, Instr.operands])
    (ho : i.op ∈ [Op.inc, .dec, .ldi, .add, .sub, .mul, .div, .and, .or, .xor, .shl] := by simp [Instr.op]) :
    Does i s (aluTwo o f a b s) := does_withRegs (fun ra _ _ _ => does_write o ra _ ho) ha hb

theorem does_aluOne {i : Instr} {s : State} {a : Byte} (o : Op) (f : Byte → Byte)
    (ha : a ∈ i.regOperands := by simp [Instr.regOperands, Instr.op, Instr.operands])
    (ho : i.op ∈ [Op.inc, .dec, .ldi, .add, .sub, .mul, .div, .and, .or, .xor, .shl] := by simp [Instr.op]) :
    Does i s (aluOne o f a s) := does_withReg (fun ra _ => does_write o ra _ ho) ha

theorem does_jumpWhen {i : Instr} {s : State} {a : Byte} (o : Op) (b : Bool) (hp : opSetsPc o.code = true)
    (ha : a ∈ i.regOperands := by simp [Instr.regOperands, Instr.op, Instr.operands])
    (ho : i.op ∈ [Op.jmp, .jeq, .jne] := by simp [Instr.op]) : Does i s (jumpWhen o b a s) :=
  does_withReg (ha := ha) fun ra _ => by
    cases b with
    | true => exact .inr (.inl ⟨s, s.reg ra, .jump i ho, by simp [finish, advance, hp]⟩)
    | false => simpa [fallThrough] using does_advance (.jump i ho) (opWidth o.code) false fun _ => rfl

theorem does_emit {i : Instr} {s : State} (o : Op) (e : OutEvent) (ho : i.op ∈ [Op.prn, .pra] := by simp [Instr.op]) :
    Does i s (finish o (s.emit e)) := does_finish (.emit i e ho) o fun _ => rfl

theorem does_execDiv (a b : Byte) (s : State) : Does (.div a b) s (execDiv a b s) := by
  refine does_withRegs fun ra rb _ _ => ?_
  split
  · exact .inl ⟨_, .inr ⟨rfl, rfl⟩, rfl⟩
  · exact does_write .div ra _

theorem does_execPush (a : Byte) (s : State) : Does (.push a) s (execPush a s) := by
  refine does_withReg fun ra _ => ?_
  obtain e | ⟨h1, -, e⟩ := push_cases (s.reg ra) s
  · rw [e]; exact does_finish (.push a _) .push fun _ => rfl
  · rw [e]; exact .inr (.inr ⟨h1, s, _, .inl rfl, rfl, rfl⟩)

theorem does_execPop (a : Byte) (s : State) : Does (.pop a) s (execPop a s) := by
  refine does_withReg fun r _ => ?_
  obtain e | ⟨h1, -, e⟩ := pop_cases s
  · simp only [popRegs, e, andThen]; exact does_finish (.pop a r) .pop fun _ => rfl
  · simp only [popRegs, e, andThen]; exact .inr (.inr ⟨h1, s, _, .inl rfl, rfl, rfl⟩)

theorem does_execIret (s : State) : Does .iret s (execIret s) := by
  unfold execIret
  obtain e | ⟨h1, -, e⟩ := returnFromInterrupt_cases s
  · rw [e]; exact does_finish .ret .iret fun h => absurd h (by decide)
  · rw [e]; exact .inr (.inr ⟨h1, s, _, .inl rfl, rfl, rfl⟩)

/-- All that one instruction can do. -/
theorem exec_cases (i : Instr) (s : State) : Does i s (exec i s) := by
  cases i with
  | hlt => exact does_finish (s := s) .halt .hlt fun _ => rfl
  | iret => exact does_execIret s
  | push a => exact does_execPush a s
  | pop a => exact does_execPop a s
  | prn a => exact does_withReg fun _ _ => does_emit .prn _
  | pra a => exact does_withReg fun _ _ => does_emit .pra _
  | jmp a => exact does_jumpWhen (i := .jmp a) .jmp _ rfl
  | jeq a => exact does_jumpWhen (i := .jeq a) .jeq _ rfl
  | jne a => exact does_jumpWhen (i := .jne a) .jne _ rfl
  | inc a => exact does_aluOne (i := .inc a) .inc (fun x => x + 1#8)
  | dec a => exact does_aluOne (i := .dec a) .dec (fun x => x - 1#8)
  | ldi a imm => exact does_withReg fun r _ => does_write .ldi r imm
  | add a b => exact does_aluTwo (i := .add a b) _ _
  | sub a b => exact does_aluTwo (i := .sub a b) _ _
  | mul a b => exact does_aluTwo (i := .mul a b) _ _
  | div a b => exact does_execDiv a b s
  | cmp a b => exact does_withRegs fun _ _ _ _ => does_finish (.flags a b _) .cmp fun _ => rfl
  | and a b => exact does_aluTwo (i := .and a b) _ _
  | or a b => exact does_aluTwo (i := .or a b) _ _
  | xor a b => exact does_aluTwo (i := .xor a b) _ _
  | shl a b => exact does_aluTwo (i := .shl a b) _ _

/-- A next state of an instruction: a precise fault recorded and nothing else, its effect and a new `PC`, or (under the
`fault` setting) what raising `AddressOverflow` leaves. -/
theorem exec_next {i : Instr} {s t : State} (h : exec i s = .next t) :
    (∃ f, RaisedBy i s f ∧ t = s.setFault f) ∨ (∃ e p, Effect s i e ∧ t = e.setPc p) ∨
      (s.addrOverflow = .fault ∧ ∃ e a, (e = s ∨ Effect s i e) ∧ e.pc = s.pc ∧ t = overflow a e) := by
  obtain ⟨f, hf, e⟩ | ⟨e, p, he, e'⟩ | ⟨hs, e, a, he, hpc, e'⟩ := exec_cases i s
  · rw [e] at h; cases h; exact .inl ⟨f, hf, rfl⟩
  · rw [e'] at h; cases h; exact .inr (.inl ⟨e, p, he, rfl⟩)
  · rw [e'] at h; cases h; exact .inr (.inr ⟨hs, e, a, he, hpc, rfl⟩)

/-- What no instruction changes, whatever it raises: `TIMER_LAST`, the launch parameters and the inputs. -/
theorem exec_same {i : Instr} {s t : State} (h : exec i s = .next t) :
    t.timerLast = s.timerLast ∧ t.addrOverflow = s.addrOverflow ∧ t.extIrqParam = s.extIrqParam ∧
      t.inputs = s.inputs ∧ t.polls = s.polls := by
  obtain ⟨f, -, rfl⟩ | ⟨e, p, he, rfl⟩ | ⟨-, e, a, rfl | he, -, rfl⟩ := exec_next h
  · exact ⟨rfl, rfl, rfl, rfl, rfl⟩
  · exact he.same.2
  · exact ⟨rfl, rfl, rfl, rfl, rfl⟩
  · exact he.same.2

/-- The register operands of a well-formed instruction name registers (R75, R76). -/
theorem regOperands_of_wellFormed {i : Instr} (h : i.wellFormed = true) {k : Byte} (hk : k ∈ i.regOperands) :
    k.toNat ≤ 7 := by
  cases i <;> simp_all [Instr.wellFormed, isRegOperand, Instr.regOperands, Instr.op, Instr.operands]
  all_goals rcases hk with rfl | rfl <;> omega

/-- Every instruction answers a next state in every state. -/
theorem exec_answers (i : Instr) (s : State) : ∃ t, exec i s = .next t := by
  obtain ⟨f, -, e⟩ | ⟨e, p, -, e'⟩ | ⟨-, e, a, -, -, e'⟩ := exec_cases i s
  · exact ⟨_, e⟩
  · exact ⟨_, e'⟩
  · exact ⟨_, e'⟩

end Sys2Proof.Machine
end

