-- ==== Sys2Proof/Laws/Cycle.lean ====
section
/-! SUPPORT. All that POLL and one cycle can do (40_execution_cycle.md R90 to R96). -/

namespace Sys2Proof.Machine

/-! ### POLL's sources -/

theorem timerPoll_eq (now : Nat) (s : State) :
    timerPoll now s =
      if s.timerLast + Config.timerPeriod ≤ now then (s.setReg rIS (s.reg rIS ||| lineBit 0)).setTimerLast now
      else s := by
  have hkeep : (s.setReg rIS (s.reg rIS)).setTimerLast s.timerLast = s := by
    simp [State.setReg, State.setTimerLast, State.reg]
  by_cases h : s.timerLast + Config.timerPeriod ≤ now <;> simp [timerPoll, timerFires, h, hkeep]

/-- The poll's sources change `IS`, `TIMER_LAST` and the inputs, nothing else (R181, R183). -/
theorem pollSources_same (s : State) :
    (∀ r, r ≠ rIS → (pollSources s).reg r = s.reg r) ∧ (pollSources s).pc = s.pc ∧ (pollSources s).fl = s.fl ∧
      (pollSources s).ie = s.ie ∧ (pollSources s).halted = s.halted ∧ (pollSources s).fault = s.fault ∧
      (pollSources s).mem = s.mem ∧ (pollSources s).out = s.out ∧ (pollSources s).addrOverflow = s.addrOverflow ∧
      (pollSources s).extIrqParam = s.extIrqParam ∧ (pollSources s).inputs = s.inputs.tail ∧ (pollSources s).polls = s.polls + 1 := by
  refine ⟨fun r hr => ?_, rfl, rfl, rfl, rfl, rfl, rfl, rfl, rfl, rfl, rfl, rfl⟩
  simp [pollSources, externalPoll, timerPoll, State.reg_setReg_ne _ _ hr]

/-- The poll's sources only ever set pending bits (R181, R183). -/
theorem pollSources_pending (s : State) (k : Nat) (h : (s.reg rIS).getLsbD k = true) :
    ((pollSources s).reg rIS).getLsbD k = true := by
  simp [pollSources, externalPoll, timerPoll, h]

/-- POLL goes on, or (under the `fault` setting) its interrupt entry raises `AddressOverflow`. -/
theorem poll_cases (s : State) :
    (∃ p, poll s = .ok p) ∨
      (s.addrOverflow = .fault ∧ s.ie = true ∧ poll s = .error (overflow 0#8 ((pollSources s).setIe false))) := by
  unfold poll
  obtain ⟨-, e⟩ | ⟨i, hie, -, e⟩ := interruptDispatch_cases (pollSources s)
  · exact .inl ⟨_, e⟩
  · obtain e' | ⟨h1, -, e'⟩ := interruptEntry_cases i (pollSources s)
    · exact .inl ⟨_, e.trans e'⟩
    · exact .inr ⟨h1, hie, e.trans e'⟩

/-- What POLL leaves alone. -/
theorem poll_same {s p : State} (h : poll s = .ok p) :
    p.fl = s.fl ∧ p.halted = s.halted ∧ p.fault = s.fault ∧ p.out = s.out ∧ p.addrOverflow = s.addrOverflow ∧
      p.extIrqParam = s.extIrqParam ∧ p.inputs = s.inputs.tail ∧ p.polls = s.polls + 1 := by
  obtain ⟨-, rfl⟩ | ⟨i, -, -, rfl⟩ := interruptDispatch_ok h
  · exact ⟨rfl, rfl, rfl, rfl, rfl, rfl, rfl, rfl⟩
  · obtain ⟨-, h2, -, h4, ⟨h5, h6, -, h8, h9, h10, h11⟩, -⟩ :=
      pushedAll_same (frameBytes (acknowledge i (pollSources s))) (acknowledge i (pollSources s))
    exact ⟨h2, h5, h6, h4, h8, h9, h10, h11⟩

theorem wf_poll {s p : State} (h : poll s = .ok p) (hm : Memory.wf s.mem = true) : Memory.wf p.mem = true := by
  obtain ⟨-, rfl⟩ | ⟨i, -, -, rfl⟩ := interruptDispatch_ok h
  · exact hm
  · exact wf_pushedAll _ _ hm

/-! ### FETCH, DECODE, EXECUTE -/

/-- All that FETCH to ADVANCE can do. -/
theorem fetchExecute_cases (p : State) :
    (∃ i rest, decode (fetchBytes p) = .ok (i, rest) ∧ fetchOverflows i p = false ∧ fetchExecute p = exec i p) ∨
      (fetchExecute p = .next (p.setFault (.invalidOpcode (p.load p.pc) p.pc)) ∧
        ∃ e, decode (fetchBytes p) = .error e) ∨
      (p.addrOverflow = .fault ∧ fetchExecute p = .next (overflow p.pc p)) := by
  unfold fetchExecute
  split
  · next e h => exact .inr (.inl ⟨rfl, e, h⟩)
  · next i rest h =>
    cases hf : fetchOverflows i p with
    | false => exact .inl ⟨i, rest, h, hf, by simp⟩
    | true =>
      have : p.addrOverflow = .fault := by simp [fetchOverflows] at hf; exact hf.1
      exact .inr (.inr ⟨this, by simp⟩)

/-- A running core's step: POLL, then FETCH to ADVANCE of the state it leaves. -/
theorem step_running {s : State} (h : s.Running) : step s = andThen (poll s) fetchExecute := by
  simp [step, runCycle, h.1, h.2]

/-- A next state of the step: the same state if the core is halted, else what FETCH to ADVANCE make of the polled state, or
what a raise in POLL leaves. -/
theorem step_next {s t : State} (h : step s = .next t) :
    s.fault = none ∧ ((s.halted = true ∧ t = s) ∨
      (s.halted = false ∧ ((∃ p, poll s = .ok p ∧ fetchExecute p = .next t) ∨ poll s = .error t))) := by
  unfold step runCycle at h
  cases hf : s.fault with
  | some r => rw [hf] at h; cases h
  | none =>
    rw [hf] at h
    cases hh : s.halted with
    | true => simp [hh] at h; exact ⟨rfl, .inl ⟨rfl, h.symm⟩⟩
    | false =>
      simp only [hh] at h
      cases hp : poll s with
      | error e => rw [hp] at h; cases h; exact ⟨rfl, .inr ⟨rfl, .inr rfl⟩⟩
      | ok p => rw [hp] at h; exact ⟨rfl, .inr ⟨rfl, .inl ⟨p, rfl, h⟩⟩⟩

/-! ### The image -/

/-- Writing a list of bytes changes memory only. -/
theorem storeBytes_only_mem (vs : List Byte) (a : Byte) (s : State) :
    storeBytes vs a s = { s with mem := (storeBytes vs a s).mem } := by
  induction vs generalizing a s with
  | nil => rfl
  | cons v vs ih => rw [storeBytes, ih]; rfl

/-- Writing a list of bytes keeps the canonical form. -/
theorem wf_storeBytes (vs : List Byte) (a : Byte) (s : State) (h : Memory.wf s.mem = true) :
    Memory.wf (storeBytes vs a s).mem = true := by
  induction vs generalizing a s with
  | nil => exact h
  | cons v vs ih => exact ih _ _ (State.wf_store _ _ _ h)

/-- What a cell holds after a list of at most 256 bytes was written from `a` upward, modulo 256. -/
theorem storeBytes_load (vs : List Byte) (a : Byte) (s : State) (hn : vs.length ≤ 256) (b : Byte) :
   (storeBytes vs a s).load b = if h : (b - a).toNat < vs.length then vs[(b - a).toNat] else s.load b := by
  induction vs generalizing a s with
  | nil => simp [storeBytes]
  | cons v vs ih =>
    rw [storeBytes, ih _ _ (by simp at hn; omega)]
    simp only [List.length_cons] at hn ⊢
    have hb := b.isLt; have ha := a.isLt
    by_cases hba : b = a
    · subst hba
      have e0 : (b - b).toNat = 0 := by simp
      have e1 : (b - (b + 1#8)).toNat = 255 := by simp only [BitVec.toNat_sub, BitVec.toNat_add, BitVec.toNat_ofNat]; omega
      rw [dif_neg (by omega), dif_pos (by omega)]
      simp
    · have hne : b.toNat ≠ a.toNat := fun e => hba (BitVec.eq_of_toNat_eq e)
      have e1 : (b - a).toNat = (b - (a + 1#8)).toNat + 1 := by
        simp only [BitVec.toNat_sub, BitVec.toNat_add, BitVec.toNat_ofNat]; omega
      by_cases hlt : (b - (a + 1#8)).toNat < vs.length
      · rw [dif_pos hlt, dif_pos (by omega)]
        simp only [e1, List.getElem_cons_succ]
      · rw [dif_neg hlt, dif_neg (by omega), State.load_store_ne _ _ hba]

end Sys2Proof.Machine
end

