-- ==== Sys2Proof/Laws/PerInstr.lean ====
section
/-! SUPPORT. Facts about every instruction as syntax, one lemma per constructor. -/

namespace Sys2Proof.Laws.Encoding

/-- What the encoding tables say of one instruction (30_encoding.md R70, R71, R75, R78): its operation is found again by
its opcode byte, the opcode byte gives the number of operand bytes, and the operation rebuilt with the operand bytes is
the instruction. -/
def Statement (i : Instr) : Prop :=
  lookupOp i.op.code = some i.op ∧ opWidth i.op.code = i.operands.length + 1 ∧
    i.op.instr (i.operands.getD 0 0#8) (i.operands.getD 1 0#8) = i

theorem hlt : Statement .hlt := ⟨by decide, by decide, rfl⟩

theorem iret : Statement .iret := ⟨by decide, by decide, rfl⟩

theorem push (a : Byte) : Statement (.push a) :=
  ⟨(by decide : lookupOp Op.push.code = some .push), (by decide : opWidth Op.push.code = 2), rfl⟩

theorem pop (a : Byte) : Statement (.pop a) :=
  ⟨(by decide : lookupOp Op.pop.code = some .pop), (by decide : opWidth Op.pop.code = 2), rfl⟩

theorem prn (a : Byte) : Statement (.prn a) :=
  ⟨(by decide : lookupOp Op.prn.code = some .prn), (by decide : opWidth Op.prn.code = 2), rfl⟩

theorem pra (a : Byte) : Statement (.pra a) :=
  ⟨(by decide : lookupOp Op.pra.code = some .pra), (by decide : opWidth Op.pra.code = 2), rfl⟩

theorem jmp (a : Byte) : Statement (.jmp a) :=
  ⟨(by decide : lookupOp Op.jmp.code = some .jmp), (by decide : opWidth Op.jmp.code = 2), rfl⟩

theorem jeq (a : Byte) : Statement (.jeq a) :=
  ⟨(by decide : lookupOp Op.jeq.code = some .jeq), (by decide : opWidth Op.jeq.code = 2), rfl⟩

theorem jne (a : Byte) : Statement (.jne a) :=
  ⟨(by decide : lookupOp Op.jne.code = some .jne), (by decide : opWidth Op.jne.code = 2), rfl⟩

theorem inc (a : Byte) : Statement (.inc a) :=
  ⟨(by decide : lookupOp Op.inc.code = some .inc), (by decide : opWidth Op.inc.code = 2), rfl⟩

theorem dec (a : Byte) : Statement (.dec a) :=
  ⟨(by decide : lookupOp Op.dec.code = some .dec), (by decide : opWidth Op.dec.code = 2), rfl⟩

theorem ldi (a b : Byte) : Statement (.ldi a b) :=
  ⟨(by decide : lookupOp Op.ldi.code = some .ldi), (by decide : opWidth Op.ldi.code = 3), rfl⟩

theorem add (a b : Byte) : Statement (.add a b) :=
  ⟨(by decide : lookupOp Op.add.code = some .add), (by decide : opWidth Op.add.code = 3), rfl⟩

theorem sub (a b : Byte) : Statement (.sub a b) :=
  ⟨(by decide : lookupOp Op.sub.code = some .sub), (by decide : opWidth Op.sub.code = 3), rfl⟩

theorem mul (a b : Byte) : Statement (.mul a b) :=
  ⟨(by decide : lookupOp Op.mul.code = some .mul), (by decide : opWidth Op.mul.code = 3), rfl⟩

theorem div (a b : Byte) : Statement (.div a b) :=
  ⟨(by decide : lookupOp Op.div.code = some .div), (by decide : opWidth Op.div.code = 3), rfl⟩

theorem cmp (a b : Byte) : Statement (.cmp a b) :=
  ⟨(by decide : lookupOp Op.cmp.code = some .cmp), (by decide : opWidth Op.cmp.code = 3), rfl⟩

theorem and (a b : Byte) : Statement (.and a b) :=
  ⟨(by decide : lookupOp Op.and.code = some .and), (by decide : opWidth Op.and.code = 3), rfl⟩

theorem or (a b : Byte) : Statement (.or a b) :=
  ⟨(by decide : lookupOp Op.or.code = some .or), (by decide : opWidth Op.or.code = 3), rfl⟩

theorem xor (a b : Byte) : Statement (.xor a b) :=
  ⟨(by decide : lookupOp Op.xor.code = some .xor), (by decide : opWidth Op.xor.code = 3), rfl⟩

theorem shl (a b : Byte) : Statement (.shl a b) :=
  ⟨(by decide : lookupOp Op.shl.code = some .shl), (by decide : opWidth Op.shl.code = 3), rfl⟩

end Sys2Proof.Laws.Encoding
end

