-- ==== Sys2Proof/Tests/Slice0.lean ====
section
/-! SUPPORT. Tests: the well-formedness smoke test, words written out from the spec's encodings, single steps against the
vectors of 95_test_vectors.md (named in each comment), and for every statement with hypotheses a state that meets them. -/

namespace Sys2Proof.Tests

open Sys2Proof.Machine

/-! ### Helpers -/

/-- A poll in which the timer does not fire and nothing is requested. -/
def quiet : PollInput := { now := 0, extIrq := 0#8 }

/-- A core with this `PC`, `FL` and registers, all else as after reset, and a quiet poll to come. -/
def cpu (pc fl : Byte) (r : Vector Byte 8) : State := { State.reset with pc := pc, fl := fl, regs := r, inputs := [quiet] }

/-- The registers of a core that has `x` in R0, `y` in R1 and the reset value everywhere else. -/
def two (x y : Byte) : Vector Byte 8 := #v[x, y, 0x00#8, 0x00#8, 0x00#8, 0x00#8, 0x00#8, 0xF4#8]

/-- The core under the stricter setting of `ADDR_OVERFLOW`. -/
def strict (s : State) : State := { s with addrOverflow := .fault }

/-- The next state of an outcome. -/
def nextOf : Host.Outcome State Fault Refusal → Option State
  | .next t => some t
  | .fault _ => none
  | .refused _ => none

/-- The fault of an outcome. -/
def faultOf : Host.Outcome State Fault Refusal → Option Fault
  | .next _ => none
  | .fault f => some f
  | .refused _ => none

/-- The state after one step with these bytes placed at `PC`. -/
def after (bytes : List Byte) (s : State) : Option State := nextOf (step (storeBytes bytes s.pc s))

/-! ### Well-formedness: an ill-formed term for each check -/

theorem test_wellFormed_one_register : ([Instr.push 8#8, .pop 8#8, .prn 9#8, .pra 0xFF#8, .jmp 8#8, .jeq 0x80#8,
    .jne 16#8, .inc 8#8, .dec 0x0F#8, .ldi 8#8 0#8].map Instr.wellFormed) = List.replicate 10 false := by decide

theorem test_wellFormed_first_register : ([Instr.add 8#8 0#8, .sub 8#8 0#8, .mul 8#8 0#8, .div 9#8 1#8, .cmp 8#8 7#8,
    .and 8#8 0#8, .or 8#8 0#8, .xor 8#8 0#8, .shl 8#8 0#8].map Instr.wellFormed) = List.replicate 9 false := by decide

theorem test_wellFormed_second_register : ([Instr.add 0#8 8#8, .sub 0#8 8#8, .mul 0#8 8#8, .div 0#8 8#8, .cmp 7#8 8#8,
    .and 0#8 8#8, .or 0#8 8#8, .xor 0#8 0xFF#8, .shl 0#8 8#8].map Instr.wellFormed) = List.replicate 9 false := by decide

theorem test_wellFormed_accepts : ([Instr.hlt, .iret, .push 7#8, .pop 0#8, .prn 7#8, .pra 7#8, .jmp 7#8, .jeq 7#8, .jne 7#8,
    .inc 7#8, .dec 7#8, .ldi 7#8 0xFF#8, .add 7#8 7#8, .shl 0#8 7#8].map Instr.wellFormed) = List.replicate 14 true := by
  decide

/-! ### Decoding: every row's word, written out from 30_encoding.md R78 (opcode bits) and R75 (operand bytes) -/

theorem test_decode_hlt : decode [0b00000001#8] = .ok (.hlt, []) := rfl

theorem test_decode_iret : decode [0b00010011#8] = .ok (.iret, []) := rfl

theorem test_decode_push : decode [0b01000101#8, 0b00000111#8] = .ok (.push 7#8, []) := rfl

theorem test_decode_pop : decode [0b01000110#8, 0b00000001#8] = .ok (.pop 1#8, []) := rfl

theorem test_decode_prn : decode [0b01000111#8, 0b00000000#8] = .ok (.prn 0#8, []) := rfl

theorem test_decode_pra : decode [0b01001000#8, 0b00000001#8] = .ok (.pra 1#8, []) := rfl

theorem test_decode_jmp : decode [0b01010100#8, 0b00000010#8] = .ok (.jmp 2#8, []) := rfl

theorem test_decode_jeq : decode [0b01010101#8, 0b00000010#8] = .ok (.jeq 2#8, []) := rfl

theorem test_decode_jne : decode [0b01010110#8, 0b00000010#8] = .ok (.jne 2#8, []) := rfl

theorem test_decode_inc : decode [0b01100101#8, 0b00000111#8] = .ok (.inc 7#8, []) := rfl

theorem test_decode_dec : decode [0b01100110#8, 0b00000000#8] = .ok (.dec 0#8, []) := rfl

theorem test_decode_ldi : decode [0b10000010#8, 0b00000011#8, 0b11111111#8] = .ok (.ldi 3#8 255#8, []) := rfl

theorem test_decode_add : decode [0b10100000#8, 0b00000000#8, 0b00000001#8] = .ok (.add 0#8 1#8, []) := rfl

theorem test_decode_sub : decode [0b10100001#8, 0b00000010#8, 0b00000001#8] = .ok (.sub 2#8 1#8, []) := rfl

theorem test_decode_mul : decode [0b10100010#8, 0b00000000#8, 0b00000001#8] = .ok (.mul 0#8 1#8, []) := rfl

theorem test_decode_div : decode [0b10100011#8, 0b00000011#8, 0b00000100#8] = .ok (.div 3#8 4#8, []) := rfl

theorem test_decode_cmp : decode [0b10100111#8, 0b00000000#8, 0b00000001#8] = .ok (.cmp 0#8 1#8, []) := rfl

theorem test_decode_and : decode [0b10101000#8, 0b00000000#8, 0b00000001#8] = .ok (.and 0#8 1#8, []) := rfl

theorem test_decode_or : decode [0b10101010#8, 0b00000110#8, 0b00000001#8] = .ok (.or 6#8 1#8, []) := rfl

theorem test_decode_xor : decode [0b10101011#8, 0b00000000#8, 0b00000001#8] = .ok (.xor 0#8 1#8, []) := rfl

theorem test_decode_shl : decode [0b10101100#8, 0b00000000#8, 0b00000001#8] = .ok (.shl 0#8 1#8, []) := rfl

/-- V-CYC-1 to V-CYC-5: bytes outside the mapping, the wider family's among them. -/
theorem test_decode_refuses : [0x00#8, 0xFF#8, 0x50#8, 0x84#8, 0xA4#8].map (fun b => decode [b, 0#8, 1#8]) =
    [0x00#8, 0xFF#8, 0x50#8, 0x84#8, 0xA4#8].map (fun b => .error (.invalidOpcode b)) := rfl

/-- V-CYC-11 and V-CYC-12, the columns "width" and "sets PC" of 30_encoding.md R78. -/
theorem test_structure_bits : Op.all.map (fun o => (opWidth o.code, opSetsPc o.code)) =
    [(1, false), (1, true), (2, false), (2, false), (2, false), (2, false), (2, true), (2, true), (2, true), (2, false),
     (2, false), (3, false), (3, false), (3, false), (3, false), (3, false), (3, false), (3, false), (3, false), (3, false),
     (3, false)] := by decide

/-- The host's numbering of a table word: the second byte is bits 15 to 8. -/
theorem test_decodeTableWord : decodeTableWord 24 0xAA0382 = some (.ldi 3#8 0xAA#8) ∧
    decodeTableWord 8 0xA0 = some (.add 0#8 0#8) ∧ decodeTableWord 8 0x00 = none := by decide

/-! ### Single steps, by the vectors of 95_test_vectors.md -/

/-- V-ALU-2. -/
theorem test_add_wraps : (after [0xA0#8, 0#8, 1#8] (cpu 0x10#8 0#8 (two 200#8 100#8))).map
    (fun t => (t.reg 0, t.reg 1, t.fl, t.pc)) = some (44#8, 100#8, 0#8, 0x13#8) := by decide

/-- V-ALU-4: the same register twice. -/
theorem test_add_same_register : (after [0xA0#8, 0#8, 0#8] (cpu 0x10#8 0#8 (two 0x90#8 0#8))).map (fun t => t.reg 0) =
    some 0x20#8 := by decide

/-- V-ALU-6. -/
theorem test_sub_wraps : (after [0xA1#8, 0#8, 1#8] (cpu 0x10#8 0#8 (two 3#8 5#8))).map (fun t => (t.reg 0, t.reg 1)) =
    some (254#8, 5#8) := by decide

/-- V-ALU-9. -/
theorem test_mul_low_byte : (after [0xA2#8, 0#8, 1#8] (cpu 0x10#8 0#8 (two 7#8 42#8))).map (fun t => t.reg 0) =
    some 38#8 := by decide

/-- V-ALU-14. -/
theorem test_div_unsigned : (after [0xA3#8, 0#8, 1#8] (cpu 0x10#8 0#8 (two 255#8 2#8))).map (fun t => (t.reg 0, t.pc)) =
    some (127#8, 0x13#8) := by decide

/-- V-ALU-18. -/
theorem test_div_by_zero : (after [0xA3#8, 0#8, 1#8] (cpu 0x10#8 0#8 (two 17#8 0#8))).map
    (fun t => (t.reg 0, t.pc, t.fault)) = some (17#8, 0x10#8, some (.divideByZero 0x10#8)) := by decide

/-- V-ALU-20. -/
theorem test_and : (after [0xA8#8, 0#8, 1#8] (cpu 0x10#8 0#8 (two 0xCC#8 0xAA#8))).map (fun t => t.reg 0) =
    some 0x88#8 := by decide

/-- V-ALU-21. -/
theorem test_or : (after [0xAA#8, 0#8, 1#8] (cpu 0x10#8 0#8 (two 0xCC#8 0xAA#8))).map (fun t => t.reg 0) =
    some 0xEE#8 := by decide

/-- V-ALU-22. -/
theorem test_xor : (after [0xAB#8, 0#8, 1#8] (cpu 0x10#8 0#8 (two 0xCC#8 0xAA#8))).map (fun t => t.reg 0) =
    some 0x66#8 := by decide

/-- V-ALU-25. -/
theorem test_shl_one : (after [0xAC#8, 0#8, 1#8] (cpu 0x10#8 0#8 (two 0x81#8 1#8))).map (fun t => t.reg 0) =
    some 0x02#8 := by decide

/-- V-ALU-30: the count is not reduced. -/
theorem test_shl_all_out : (after [0xAC#8, 0#8, 1#8] (cpu 0x10#8 0#8 (two 0xFF#8 255#8))).map (fun t => t.reg 0) =
    some 0x00#8 := by decide

/-- V-ALU-33, V-ALU-38: INC wraps and is two bytes wide. -/
theorem test_inc_wraps : (after [0x65#8, 0#8, 0xFF#8] (cpu 0x10#8 0#8 (two 255#8 0#8))).map (fun t => (t.reg 0, t.pc)) =
    some (0#8, 0x12#8) := by decide

/-- V-ALU-35. -/
theorem test_dec_wraps : (after [0x66#8, 0#8] (cpu 0x10#8 0#8 (two 0#8 0#8))).map (fun t => (t.reg 0, t.fl)) =
    some (255#8, 0#8) := by decide

/-- V-ALU-43: unsigned. -/
theorem test_cmp_unsigned : (after [0xA7#8, 0#8, 1#8] (cpu 0x10#8 0#8 (two 0#8 255#8))).map (fun t => t.fl) =
    some 0b100#8 := by decide

/-- V-ALU-48: the upper five bits are kept. -/
theorem test_cmp_keeps_upper_bits : (after [0xA7#8, 0#8, 1#8] (cpu 0x10#8 0xFA#8 (two 1#8 2#8))).map (fun t => t.fl) =
    some 0xFC#8 := by decide

/-- V-ALU-52, V-ALU-54: index faults come first, operand `a` before `b`. -/
theorem test_index_fault_order :
    (after [0xA3#8, 9#8, 1#8] (cpu 0x10#8 0#8 (two 1#8 0#8))).map (fun t => t.fault) =
      some (some (.registerIndex 0x09#8 0x10#8)) ∧
    (after [0xA7#8, 8#8, 9#8] (cpu 0x10#8 7#8 (two 1#8 0#8))).map (fun t => (t.fault, t.fl, t.pc)) =
      some (some (.registerIndex 0x08#8 0x10#8), 7#8, 0x10#8) := by decide

/-- V-LDI-8: fetch and advance wrap. -/
theorem test_ldi_at_the_top : (after [0x82#8, 1#8, 0x82#8] (cpu 0xFE#8 0#8 (two 0#8 0#8))).map
    (fun t => (t.reg 1, t.pc, t.load 0#8)) = some (0x82#8, 0x01#8, 0x82#8) := by decide

/-- V-STK-3. -/
theorem test_push_sp : (after [0x45#8, 7#8] (cpu 0x10#8 0#8 (two 0#8 0#8))).map (fun t => (t.load 0xF3#8, t.reg 7)) =
    some (0xF4#8, 0xF3#8) := by decide

/-- V-STK-10: a push over its own operand byte lands after the fetch. -/
theorem test_push_own_bytes : (after [0x45#8, 0#8] { cpu 0x10#8 0#8 (two 1#8 0#8) with
    regs := (two 1#8 0#8).set 7 0x12#8 }).map (fun t => (t.load 0x11#8, t.reg 7, t.pc)) =
    some (0x01#8, 0x11#8, 0x12#8) := by decide

/-- V-STK-4. -/
theorem test_pop_sp : (after [0x46#8, 7#8] (State.store { cpu 0x10#8 0#8 (two 0#8 0#8) with
    regs := (two 0#8 0#8).set 7 0xF3#8 } 0xF3#8 0x50#8)).map (fun t => t.reg 7) = some 0x50#8 := by decide

/-- V-STK-7: a pop at the top of memory wraps. -/
theorem test_pop_wraps : (after [0x46#8, 0#8] (State.store { cpu 0x10#8 0#8 (two 0#8 0#8) with
    regs := (two 0#8 0#8).set 7 0xFF#8 } 0xFF#8 0x33#8)).map (fun t => (t.reg 0, t.reg 7, t.load 0xFF#8)) =
    some (0x33#8, 0x00#8, 0x33#8) := by decide

/-- V-JMP-3. -/
theorem test_jmp : (after [0x54#8, 7#8] (cpu 0x10#8 0#8 (two 0#8 0#8))).map (fun t => t.pc) = some 0xF4#8 := by decide

/-- V-JMP-8: only bit 0 is tested. -/
theorem test_jeq_taken : (after [0x55#8, 1#8] (cpu 0x10#8 0xF9#8 (two 0#8 0x20#8))).map (fun t => t.pc) =
    some 0x20#8 := by decide

/-- V-JMP-13: not taken at the top of memory. -/
theorem test_jeq_falls_through : (after [0x55#8, 1#8] (cpu 0xFE#8 0b100#8 (two 0#8 0#8))).map (fun t => t.pc) =
    some 0x00#8 := by decide

/-- V-JMP-12. -/
theorem test_jne_taken : (after [0x56#8, 1#8] (cpu 0x10#8 0#8 (two 0#8 0x09#8))).map (fun t => t.pc) = some 0x09#8 := by
  decide

/-- V-JMP-11. -/
theorem test_jne_falls_through : (after [0x56#8, 1#8] (cpu 0x10#8 1#8 (two 0#8 0x09#8))).map (fun t => t.pc) =
    some 0x12#8 := by decide

/-- V-SYS-1, with the console text. -/
theorem test_prn : (after [0x47#8, 0#8] (cpu 0x10#8 0#8 (two 17#8 0#8))).map (fun t => (t.out, consoleText t)) =
    some ([.num 17#8], ['1', '7', '\n']) := by decide

/-- V-SYS-5, with the console text. -/
theorem test_pra : (after [0x48#8, 1#8] (cpu 0x10#8 0#8 (two 0#8 65#8))).map (fun t => (t.out, consoleText t)) =
    some ([.chr 65#8], ['A']) := by decide

/-- V-SYS-9. -/
theorem test_hlt : (after [0x01#8] (cpu 0xFF#8 0#8 (two 0#8 0#8))).map (fun t => (t.halted, t.pc)) = some (true, 0#8) := by
  decide

/-- V-SYS-11: nine pops in the fixed order. -/
theorem test_iret : (after [0x13#8] (storeBytes [0x11#8, 0x22#8, 0x33#8, 0x44#8, 0x55#8, 0x66#8, 0x77#8, 0x88#8, 0x99#8]
    0xF4#8 { cpu 0x10#8 0#8 (two 0#8 0#8) with ie := false })).map (fun t => (t.regs, t.fl, t.pc, t.ie)) =
    some (#v[0x77#8, 0x66#8, 0x55#8, 0x44#8, 0x33#8, 0x22#8, 0x11#8, 0xFD#8], 0x88#8, 0x99#8, true) := by decide

/-- V-CYC-2: an illegal opcode. -/
theorem test_illegal_opcode : (after [0xFF#8] (cpu 0x10#8 0#8 (two 5#8 0#8))).map (fun t => (t.fault, t.pc)) =
    some (some (.invalidOpcode 0xFF#8 0x10#8), 0x10#8) := by decide

/-! ### Interrupts -/

/-- The state of V-INT-1. -/
def beforeEntry : State := storeBytes [0x82#8, 0#8, 0xAA#8] 0x40#8
  (State.store (cpu 0x20#8 0x02#8 #v[1#8, 2#8, 3#8, 4#8, 5#8, 1#8, 1#8, 0xF4#8]) 0xF8#8 0x40#8)

/-- V-INT-1: the frame, the vector, and the handler's first instruction in the same cycle. -/
theorem test_interrupt_entry : (nextOf (step beforeEntry)).map (fun t => (t.regs, t.pc, t.ie)) =
      some (#v[0xAA#8, 2#8, 3#8, 4#8, 5#8, 1#8, 0#8, 0xEB#8], 0x43#8, false) ∧
    (nextOf (step beforeEntry)).map (fun t => [0xF3#8, 0xF2#8, 0xF1#8, 0xF0#8, 0xEF#8, 0xEE#8, 0xED#8, 0xEC#8,
      0xEB#8].map t.load) = some [0x20#8, 2#8, 1#8, 2#8, 3#8, 4#8, 5#8, 1#8, 0#8] := by decide

/-- V-INT-5: the mask selects among pending lines. -/
theorem test_interrupt_mask : (match poll (State.store (cpu 0x30#8 0#8 #v[0#8, 0#8, 0#8, 0#8, 0#8, 0x82#8, 0x83#8, 0xF4#8])
    0xF9#8 0x60#8) with
    | .ok t => (t.reg 6, t.ie, t.pc, t.reg 7, t.load 0xEB#8)
    | .error _ => (0#8, true, 0#8, 0#8, 0#8)) = (0x81#8, false, 0x60#8, 0xEB#8, 0x81#8) := by decide

/-- V-INT-7 and V-INT-8: a firing with the line masked stays pending, with the line enabled it is entered at once. -/
theorem test_timer : (match poll { cpu 0x30#8 0#8 (two 0#8 0#8) with inputs := [{ now := 1000000, extIrq := 0#8 }] } with
    | .ok t => (t.reg 6, t.ie, t.pc, t.timerLast)
    | .error _ => (0#8, true, 0#8, 0)) = (0x01#8, true, 0x30#8, 1000000) ∧
    (match poll { cpu 0x30#8 0#8 ((two 0#8 0#8).set 5 1#8) with inputs := [{ now := 1000000, extIrq := 0#8 }] } with
    | .ok t => (t.reg 6, t.ie, t.pc, t.load 0xEB#8)
    | .error _ => (0#8, true, 0#8, 0#8)) = (0x00#8, false, 0x00#8, 0x00#8) := by decide

/-- V-INT-11: bit 0 of `EXT_IRQ` is ignored; line 1 is entered. -/
theorem test_external_request : (match poll (State.store { cpu 0x30#8 0#8 ((two 0#8 0#8).set 5 2#8) with
    inputs := [{ now := 0, extIrq := 3#8 }] } 0xF9#8 0x60#8) with
    | .ok t => (t.reg 6, t.ie, t.pc)
    | .error _ => (0#8, true, 0#8)) = (0x00#8, false, 0x60#8) := by decide

/-- V-INT-12: a frame that wraps and overwrites its own vector. -/
theorem test_frame_over_vector : (match poll (cpu 0x30#8 0#8 #v[0#8, 0#8, 0x77#8, 0#8, 0#8, 0x80#8, 0x80#8, 0x04#8]) with
    | .ok t => (t.pc, t.reg 7, t.load 0x03#8, t.load 0xFF#8)
    | .error _ => (0#8, 0#8, 0#8, 0#8)) = (0x77#8, 0xFB#8, 0x30#8, 0x77#8) := by decide

/-- V-CYC-9: an illegal opcode in the cycle that enters an interrupt. -/
theorem test_entry_then_fault : (nextOf (step (State.store (cpu 0x20#8 0#8 #v[0#8, 0#8, 0#8, 0#8, 0#8, 1#8, 1#8, 0xF4#8])
    0xF8#8 0x40#8))).map (fun t => (t.fault, t.ie, t.reg 7, t.pc)) =
    some (some (.invalidOpcode 0x00#8 0x40#8), false, 0xEB#8, 0x40#8) := by decide

/-- V-CYC-10: a halted core polls nothing. -/
theorem test_halted_core : (nextOf (step { cpu 0x20#8 0#8 ((two 0#8 0#8).set 5 1#8) with
    halted := true, inputs := [{ now := 1000000, extIrq := 0#8 }] })).map (fun t => (t.reg 6, t.pc, t.inputs)) =
    some (0#8, 0x20#8, [{ now := 1000000, extIrq := 0#8 }]) := by decide

/-- V-STK-6, its last sentence: under the stricter setting a push at `SP` = 0 raises `AddressOverflow` (code 4 of R170), and
no cycle follows. -/
theorem test_strict_push : (nextOf (step (storeBytes [0x45#8, 0#8] 0x10#8 (strict { cpu 0x10#8 0#8 (two 0x99#8 0#8) with
    regs := (two 0x99#8 0#8).set 7 0#8 })))).map (fun t => (t.fault, t.fault.map FaultRecord.code, t.pc, faultOf (step t))) =
    some (some (.addressOverflow 0x00#8 0x10#8), some 4, 0x10#8, some (.faulted (.addressOverflow 0x00#8 0x10#8))) := by
  decide

/-- R172: a `PRN` at 0xFE has emitted its event when its ADVANCE raises. -/
theorem test_strict_prn : (nextOf (step (storeBytes [0x47#8, 0#8] 0xFE#8 (strict (cpu 0xFE#8 0#8 (two 3#8 0#8)))))).map
    (fun t => (t.fault, t.out, t.pc)) = some (some (.addressOverflow 0xFE#8 0xFE#8), [.num 3#8], 0xFE#8) := by decide

/-- R172: an `HLT` at 0xFF has set `HALTED` when its ADVANCE raises; the run has gone wrong (R12). -/
theorem test_strict_hlt : (nextOf (step (storeBytes [0x01#8] 0xFF#8 (strict (cpu 0xFF#8 0#8 (two 3#8 0#8)))))).map
    (fun t => (t.fault, t.halted)) = some (some (.addressOverflow 0xFF#8 0xFF#8), true) := by decide

/-- R172: an entry whose frame does not fit has cleared `IE` when its push raises. -/
theorem test_strict_entry : (nextOf (step (strict (cpu 0x30#8 0#8 #v[0#8, 0#8, 0#8, 0#8, 0#8, 1#8, 1#8, 0x08#8])))).map
    (fun t => (t.fault, t.ie, t.pc)) = some (some (.addressOverflow 0x00#8 0x30#8), false, 0x30#8) := by decide

/-- R8, R10, D10: with nothing listed and the parameter at its default, `EXT_IRQ` is 0. -/
theorem test_external_default : (nextInput State.reset).extIrq = 0#8 := rfl

/-- P6(a), second cycle on: past the image memory is 0x00, an illegal opcode; the reset state itself has no program. -/
theorem test_step_from_reset : (nextOf (step { State.reset with inputs := [quiet] })).map (fun t => (t.fault, t.pc)) =
    some (some (.invalidOpcode 0x00#8 0x00#8), 0#8) := by decide

/-- A placed word runs as the first instruction after reset (log entry 6): `LDI R0,8`, V-LDI-1. -/
theorem test_placed_word : (nextOf (step (State.reset.withFetchWord 24 0x080082))).map (fun t => (t.reg 0, t.pc)) =
    some (8#8, 3#8) := by decide

/-! ### Witnesses: for each statement of Obligations.lean with hypotheses, a state and operands that meet them together,
clause by clause, at the ends of their ranges -/

/-- The state of most witnesses: R0 = 5, R1 = 9, a quiet poll to come. -/
def base : State := cpu 0x20#8 0#8 (two 5#8 9#8)

/-- `base` under the stricter setting, at the address `pc` and with the stack pointer `sp`. -/
def edge (pc sp : Byte) : State := { strict base with pc := pc, regs := base.regs.set 7 sp }

/-- `base` with these interrupt mask and status. -/
def masked (im is : Byte) : State := { base with regs := (base.regs.set 5 im).set 6 is }

theorem witness_pushAndPopPrimitives : base.addrOverflow = .wrap ∧ (cpu 0#8 0#8 (base.regs.set 7 0#8)).addrOverflow = .wrap :=
  ⟨rfl, rfl⟩

theorem witness_stackRoundTrip : ([1#8, 2#8, 3#8].length ≤ 256 ∧ ∃ t, pushAll [1#8, 2#8, 3#8] base = .ok t) ∧
    (List.replicate 256 7#8).length ≤ 256 ∧ ∃ t, pushAll (List.replicate 256 7#8) base = .ok t :=
  ⟨⟨by decide, _, rfl⟩, by rw [List.length_replicate], _, pushAll_ok _ _ (.inl rfl)⟩

theorem witness_canonicalMemoryIsUnique : Memory.wf [(0, 5#8), (255, 9#8)] = true ∧
    Memory.wf (base.store 255#8 9#8 |>.store 0#8 5#8).mem = true ∧
    ∀ a : Nat, a < 256 → Memory.read [(0, 5#8), (255, 9#8)] a = Memory.read (base.store 255#8 9#8 |>.store 0#8 5#8).mem a :=
  ⟨by decide, by decide, fun _ _ => rfl⟩

theorem witness_imageLoad : (List.replicate 256 1#8).length ≤ 256 ∧ 256 < (List.replicate 257 1#8).length := by
  rw [List.length_replicate, List.length_replicate]; decide

/-- Every clause of the two-register statements (ADD, SUB, MUL, AND, OR, XOR, SHL, CMP): under `wrap` at the top of memory,
under `fault` at the last address that can advance by 3; the first operand bad, the second bad. -/
theorem witness_twoRegisterOps : (Names 7#8 7 ∧ Names 0#8 0 ∧ CanAdvance 3 (cpu 0xFF#8 0#8 (two 5#8 9#8))) ∧
    (Names 7#8 7 ∧ Names 7#8 7 ∧ CanAdvance 3 (edge 252#8 0#8)) ∧ 7 < (8#8).toNat ∧
    ((7#8).toNat ≤ 7 ∧ 7 < (8#8).toNat) :=
  ⟨⟨rfl, rfl, .inl rfl⟩, ⟨rfl, rfl, .inr (by decide)⟩, by decide, by decide, by decide⟩

theorem witness_shiftLeftInstruction : 8 ≤ (8#8).toNat ∧ 8 ≤ (255#8).toNat := by decide

theorem witness_divideInstruction :
    (Names 0#8 0 ∧ Names 1#8 1 ∧ base.reg 1 ≠ 0#8 ∧ CanAdvance 3 base) ∧ (Names 0#8 0 ∧ Names 2#8 2 ∧ base.reg 2 = 0#8) ∧
    7 < (8#8).toNat ∧ ((7#8).toNat ≤ 7 ∧ 7 < (255#8).toNat) :=
  ⟨⟨rfl, rfl, by decide, .inl rfl⟩, ⟨rfl, rfl, rfl⟩, by decide, by decide, by decide⟩

/-- INC and DEC, and the same hypotheses of PRN, PRA and the jumps that fall through. -/
theorem witness_oneRegisterOps : (Names 7#8 7 ∧ CanAdvance 2 (edge 253#8 0#8)) ∧ (Names 0#8 0 ∧ CanAdvance 2 base) ∧
    7 < (8#8).toNat :=
  ⟨⟨rfl, .inr (by decide)⟩, ⟨rfl, .inl rfl⟩, by decide⟩

/-- CMP from two states that agree on the upper bits of `FL` and not on the lower ones. -/
theorem witness_aluOperationsArePure : ∃ t t' : State, (Instr.cmp 0#8 1#8).op ∈ [Op.add, .sub, .mul, .div, .and, .or, .xor,
      .shl, .inc, .dec, .cmp] ∧
    (∀ k ∈ (Instr.cmp 0#8 1#8).operands, ∀ r, Names k r → base.reg r = (cpu 0x70#8 7#8 (two 5#8 9#8)).reg r) ∧
    ((Instr.cmp 0#8 1#8).op = .cmp → base.fl &&& 0xF8#8 = (cpu 0x70#8 7#8 (two 5#8 9#8)).fl &&& 0xF8#8) ∧ exec (.cmp 0#8 1#8) base = .next t ∧
    exec (.cmp 0#8 1#8) (cpu 0x70#8 7#8 (two 5#8 9#8)) = .next t' ∧ t.fault = none ∧ t'.fault = none :=
  ⟨_, _, by decide, fun _ _ _ _ => rfl, by decide, rfl, rfl, rfl, rfl⟩

/-- ADD from two states whose `FL` differs in its upper bits (and in the lower): for another operation than CMP nothing is
asked of `FL`. -/
theorem witness_aluOperationsArePure_otherThanCmp : ∃ t t' : State,
    base.fl &&& 0xF8#8 ≠ (cpu 0x70#8 0xF8#8 (two 5#8 9#8)).fl &&& 0xF8#8 ∧
    (Instr.add 0#8 1#8).op ∈ [Op.add, .sub, .mul, .div, .and, .or, .xor, .shl, .inc, .dec, .cmp] ∧
    (∀ k ∈ (Instr.add 0#8 1#8).operands, ∀ r, Names k r → base.reg r = (cpu 0x70#8 0xF8#8 (two 5#8 9#8)).reg r) ∧
    ((Instr.add 0#8 1#8).op = .cmp → base.fl &&& 0xF8#8 = (cpu 0x70#8 0xF8#8 (two 5#8 9#8)).fl &&& 0xF8#8) ∧
    exec (.add 0#8 1#8) base = .next t ∧ exec (.add 0#8 1#8) (cpu 0x70#8 0xF8#8 (two 5#8 9#8)) = .next t' ∧
    t.fault = none ∧ t'.fault = none :=
  ⟨_, _, by decide, by decide, fun _ _ _ _ => rfl, by decide, rfl, rfl, rfl, rfl⟩

theorem witness_loadImmediateInstruction : (Names 7#8 7 ∧ CanAdvance 3 (edge 252#8 0#8)) ∧ 7 < (8#8).toNat :=
  ⟨⟨rfl, .inr (by decide)⟩, by decide⟩

theorem witness_pushInstruction :
    (Names 7#8 7 ∧ CanAdvance 2 base ∧ (base.addrOverflow = .wrap ∨ base.reg rSP ≠ 0#8)) ∧
    (Names 0#8 0 ∧ CanAdvance 2 (edge 253#8 1#8) ∧ ((edge 253#8 1#8).addrOverflow = .wrap ∨ (edge 253#8 1#8).reg rSP ≠ 0#8)) ∧
    7 < (8#8).toNat ∧ (Names 0#8 0 ∧ (edge 0#8 0#8).addrOverflow = .fault ∧ (edge 0#8 0#8).reg rSP = 0#8) :=
  ⟨⟨rfl, .inl rfl, .inl rfl⟩, ⟨rfl, .inr (by decide), .inr (by decide)⟩, by decide, rfl, rfl, rfl⟩

theorem witness_popInstruction :
    (Names 7#8 7 ∧ CanAdvance 2 base ∧ (base.addrOverflow = .wrap ∨ base.reg rSP ≠ 0xFF#8)) ∧
    (Names 0#8 0 ∧ CanAdvance 2 (edge 253#8 254#8) ∧
      ((edge 253#8 254#8).addrOverflow = .wrap ∨ (edge 253#8 254#8).reg rSP ≠ 0xFF#8)) ∧
    7 < (8#8).toNat ∧ (Names 0#8 0 ∧ (edge 0#8 255#8).addrOverflow = .fault ∧ (edge 0#8 255#8).reg rSP = 0xFF#8) :=
  ⟨⟨rfl, .inl rfl, .inl rfl⟩, ⟨rfl, .inr (by decide), .inr (by decide)⟩, by decide, rfl, rfl, rfl⟩

theorem witness_pushThenPopCopies : Names 0#8 0 ∧ Names 7#8 7 ∧ base.addrOverflow = .wrap := ⟨rfl, rfl, rfl⟩

theorem witness_jumpInstruction : Names 7#8 7 ∧ 7 < (8#8).toNat := ⟨rfl, by decide⟩

theorem witness_conditionalJumps : (Names 7#8 7 ∧ (cpu 0xFF#8 1#8 (two 0#8 0#8)).fl.getLsbD 0 = true ∧
      CanAdvance 2 (cpu 0xFF#8 1#8 (two 0#8 0#8))) ∧
    (Names 0#8 0 ∧ (edge 253#8 0#8).fl.getLsbD 0 = false ∧ CanAdvance 2 (edge 253#8 0#8)) ∧ 7 < (8#8).toNat :=
  ⟨⟨rfl, by decide, .inl rfl⟩, ⟨rfl, by decide, .inr (by decide)⟩, by decide⟩

theorem witness_consoleOutput : (Names 7#8 7 ∧ CanAdvance 2 (edge 253#8 0#8)) ∧ 7 < (8#8).toNat :=
  ⟨⟨rfl, .inr (by decide)⟩, by decide⟩

theorem witness_haltInstruction : CanAdvance 1 (edge 254#8 0#8) ∧ CanAdvance 1 base ∧
    ∃ t, exec .hlt base = .next t ∧ t.fault = none :=
  ⟨.inr (by decide), .inl rfl, _, rfl, rfl⟩

theorem witness_returnFromInterruptInstruction :
    (base.addrOverflow = .wrap ∨ (base.reg rSP).toNat + 9 ≤ 255) ∧
    ((edge 0#8 246#8).addrOverflow = .wrap ∨ ((edge 0#8 246#8).reg rSP).toNat + 9 ≤ 255) ∧
    ((edge 0#8 247#8).addrOverflow = .fault ∧ 255 < ((edge 0#8 247#8).reg rSP).toNat + 9) :=
  ⟨.inl rfl, .inr (by decide), rfl, by decide⟩

/-- The clauses of interrupt entry: disabled; masked; line 0 with every line asking; line 7 alone. -/
theorem witness_interruptEntry : ({ base with ie := false } : State).ie = false ∧
    (masked 0x0F#8 0xF0#8).reg rIM &&& (masked 0x0F#8 0xF0#8).reg rIS = 0#8 ∧
    (Selects (masked 0xFF#8 0xFF#8) 0 ∧ (masked 0xFF#8 0xFF#8).addrOverflow = .wrap) ∧
    (Selects (masked 0x80#8 0xFF#8) 7 ∧ (masked 0x80#8 0xFF#8).addrOverflow = .wrap) := by
  unfold Selects; decide

/-- `masked` under the stricter setting with the stack pointer `sp`. -/
def maskedEdge (sp : Byte) : State := strict { masked 0x80#8 0xFF#8 with regs := (masked 0x80#8 0xFF#8).regs.set 7 sp }

theorem witness_interruptEntryUnderFaultSetting :
    (Selects (maskedEdge 9#8) 7 ∧ (maskedEdge 9#8).addrOverflow = .fault ∧ 9 ≤ ((maskedEdge 9#8).reg rSP).toNat) ∧
    (Selects (maskedEdge 8#8) 7 ∧ (maskedEdge 8#8).addrOverflow = .fault ∧ ((maskedEdge 8#8).reg rSP).toNat < 9) ∧
    (maskedEdge 0#8).Running ∧ ∃ t, poll (maskedEdge 0#8) = .error t :=
  ⟨by unfold Selects; decide, by unfold Selects; decide, ⟨rfl, rfl⟩, _, rfl⟩

theorem witness_externalRequestsDefaultToNone : State.reset.inputs = [] ∧ State.reset.extIrqParam = .zero := ⟨rfl, rfl⟩

theorem witness_pendingRequestsStay : ∃ p, poll (masked 0x80#8 0x81#8) = .ok p ∧
    ((masked 0x80#8 0x81#8).reg rIS).getLsbD (7 : RegIx).val = true ∧ (p.reg rIS).getLsbD (7 : RegIx).val = false :=
  ⟨_, rfl, by decide, by decide⟩

theorem witness_timerPollSetsLineZero : base.timerLast + 1000000 ≤ 1000000 ∧ 999999 < base.timerLast + 1000000 := by decide

theorem witness_externalPollSetsLinesOneToSeven : (1 ≤ 1 ∧ 1 < 8) ∧ (1 ≤ 7 ∧ 7 < 8) := by decide

theorem witness_entryThenReturnRestores : ∃ t, (masked 0xFF#8 0x80#8).addrOverflow = .wrap ∧
    interruptEntry 7 (masked 0xFF#8 0x80#8) = .ok t ∧ ({ t with fl := 3#8 } : State).addrOverflow = .wrap ∧
    ({ t with fl := 3#8 } : State).reg rSP = t.reg rSP ∧
    ∀ k, 1 ≤ k → k ≤ 9 → ({ t with fl := 3#8 } : State).load (frameAddr ((masked 0xFF#8 0x80#8).reg rSP) k) =
      t.load (frameAddr ((masked 0xFF#8 0x80#8).reg rSP) k) :=
  ⟨_, rfl, rfl, rfl, rfl, fun _ _ _ => rfl⟩

/-- Inside a handler, at an `IRET`. -/
def atReturn : State := storeBytes [0x13#8] 0x20#8 { base with ie := false }

theorem witness_noNestingInsideHandler : (∃ p, atReturn.ie = false ∧ poll atReturn = .ok p) ∧
    ∃ t, atReturn.ie = false ∧ step atReturn = .next t ∧ t.ie = true :=
  ⟨⟨_, rfl, rfl⟩, _, rfl, rfl, rfl⟩

theorem witness_softwareRaisesInterrupt : ∃ t, Names 6#8 rIS ∧ (masked 0x80#8 0#8).addrOverflow = .wrap ∧
    (masked 0x80#8 0#8).ie = true ∧ (masked 0x80#8 0#8).reg rIM &&& 0xFF#8 ≠ 0#8 ∧
    exec (.ldi 6#8 0xFF#8) (masked 0x80#8 0#8) = .next t :=
  ⟨_, rfl, rfl, rfl, by decide, rfl⟩

/-- An `LDI` placed at the last address whose fetch does not overflow under the stricter setting. -/
def atEdge : State := storeBytes [0x82#8, 0#8, 7#8] 253#8 (edge 253#8 0xF4#8)

theorem witness_stepRunsDecodedInstruction : ∃ p, atEdge.Running ∧
    interruptDispatch (externalPoll (nextInput atEdge).extIrq (timerPoll (nextInput atEdge).now (takeInput atEdge))) = .ok p ∧
    decode [p.load p.pc, p.load (p.pc + 1#8), p.load (p.pc + 2#8)] = .ok (.ldi 0#8 7#8, []) ∧
    (p.addrOverflow = .wrap ∨ p.pc.toNat + (Instr.ldi 0#8 7#8).operands.length ≤ 255) :=
  ⟨_, ⟨rfl, rfl⟩, rfl, rfl, .inr (by decide)⟩

theorem witness_illegalOpcodeFaults : ∃ p, base.Running ∧ poll base = .ok p ∧ (p.load p.pc).toNat ∉
    [0x01, 0x13, 0x45, 0x46, 0x47, 0x48, 0x54, 0x55, 0x56, 0x65, 0x66, 0x82, 0xA0, 0xA1, 0xA2, 0xA3, 0xA7, 0xA8,
     0xAA, 0xAB, 0xAC] :=
  ⟨_, ⟨rfl, rfl⟩, rfl, by decide⟩

theorem witness_terminalCoreTakesNoCycle : ({ base with halted := true } : State).EndedWell ∧
    ({ base with fault := some (.divideByZero 3#8) } : State).fault = some (.divideByZero 3#8) :=
  ⟨⟨rfl, rfl⟩, rfl⟩

theorem witness_runningCoreAlwaysSteps : (base.Running ∧ (edge 0xFF#8 0#8).Running) ∧
    ∃ t, base.addrOverflow = .wrap ∧ (Instr.ldi 7#8 0xFF#8).wellFormed = true ∧ (Instr.ldi 7#8 0xFF#8).op ≠ .div ∧
      exec (.ldi 7#8 0xFF#8) base = .next t :=
  ⟨⟨⟨rfl, rfl⟩, rfl, rfl⟩, _, rfl, by decide, by decide, rfl⟩

theorem witness_environmentSampledOncePerCycle : ∃ t, base.Running ∧ step base = .next t ∧ base.inputs = quiet :: [] :=
  ⟨_, ⟨rfl, rfl⟩, rfl, rfl⟩

/-- An ordinary instruction, and the two conditional jumps that are not taken. -/
theorem witness_advanceMovesByDecodedWidth :
    (∃ t, exec (.inc 0#8) base = .next t ∧ t.fault = none ∧ (Instr.inc 0#8).op ≠ .jmp ∧ (Instr.inc 0#8).op ≠ .iret ∧
      ¬((Instr.inc 0#8).op = .jeq ∧ base.fl.getLsbD 0 = true) ∧ ¬((Instr.inc 0#8).op = .jne ∧ base.fl.getLsbD 0 = false)) ∧
    (∃ t, exec (.jeq 0#8) base = .next t ∧ t.fault = none ∧ (Instr.jeq 0#8).op ≠ .jmp ∧ (Instr.jeq 0#8).op ≠ .iret ∧
      ¬((Instr.jeq 0#8).op = .jeq ∧ base.fl.getLsbD 0 = true) ∧ ¬((Instr.jeq 0#8).op = .jne ∧ base.fl.getLsbD 0 = false)) :=
  ⟨⟨_, rfl, rfl, by decide⟩, _, rfl, rfl, by decide⟩

theorem witness_faultsArePrecise :
    (∃ t f, base.fault = none ∧ exec (.div 0#8 2#8) base = .next t ∧ t.fault = some f ∧ f.code ≠ 4) ∧
    (∃ t f, base.fault = none ∧ exec (.add 0#8 8#8) base = .next t ∧ t.fault = some f ∧ f.code ≠ 4) ∧
    ∃ p t f, base.Running ∧ poll base = .ok p ∧ step base = .next t ∧ t.fault = some f ∧ f.code ≠ 4 ∧ f.code = 1 :=
  ⟨⟨_, _, rfl, rfl, rfl, by decide⟩, ⟨_, _, rfl, rfl, rfl, by decide⟩, _, _, _, ⟨rfl, rfl⟩, rfl, rfl, rfl, by decide, rfl⟩

/-- The clauses about `inc8` and `dec8`: just past the end and at the end. -/
theorem witness_addressArithmeticUnderFaultSetting : (strict base).addrOverflow = .fault ∧ 255 < (255#8).toNat + 1 ∧
    (254#8).toNat + 1 ≤ 255 ∧ (0#8).toNat < 1 ∧ 1 ≤ (1#8).toNat := by decide

/-- The clauses about ADVANCE: LDI at 252 and 253, HLT at 255, PRN and PRA at 254. -/
theorem witness_advanceUnderFaultSetting :
    (∀ pc ∈ [252#8, 253#8], (edge pc 0xF4#8).addrOverflow = .fault ∧ (Instr.ldi 0#8 0#8).wellFormed = true ∧
      (Instr.ldi 0#8 0#8).op ∉ [Op.jmp, .iret, .jeq, .jne, .div, .push, .pop] ∧
      (Instr.ldi 0#8 0#8).op ∉ [Op.hlt, .prn, .pra]) ∧
    (edge 252#8 0xF4#8).pc.toNat + (Instr.ldi 0#8 0#8).operands.length + 1 ≤ 255 ∧
    255 < (edge 253#8 0xF4#8).pc.toNat + (Instr.ldi 0#8 0#8).operands.length + 1 ∧
    (Names 7#8 7 ∧ 255 < (edge 255#8 0xF4#8).pc.toNat + 1 ∧ 255 < (edge 254#8 0xF4#8).pc.toNat + 2) :=
  ⟨by decide, by decide, by decide, rfl, by decide, by decide⟩

/-- DIV at 252 and 253, PUSH and POP at 253 and 254, the jumps that fall through at 253 and 254. -/
theorem witness_advanceOfOthersUnderFaultSetting :
    (Names 0#8 0 ∧ Names 1#8 1 ∧ (edge 253#8 1#8).addrOverflow = .fault ∧ (edge 253#8 1#8).reg 1 ≠ 0#8 ∧
      255 < (edge 253#8 1#8).pc.toNat + 3 ∧ (edge 252#8 1#8).reg 1 ≠ 0#8 ∧ (edge 252#8 1#8).pc.toNat + 3 ≤ 255) ∧
    ((edge 254#8 1#8).reg rSP ≠ 0#8 ∧ (edge 254#8 1#8).reg rSP ≠ 0xFF#8 ∧ 255 < (edge 254#8 1#8).pc.toNat + 2 ∧
      (edge 253#8 254#8).reg rSP ≠ 0xFF#8 ∧ (edge 253#8 254#8).reg rSP ≠ 0#8 ∧ (edge 253#8 254#8).pc.toNat + 2 ≤ 255) ∧
    (((Instr.jeq 0#8 = .jeq 0#8 ∧ (edge 254#8 0#8).fl.getLsbD 0 = false) ∨
        (Instr.jeq 0#8 = .jne 0#8 ∧ (edge 254#8 0#8).fl.getLsbD 0 = true)) ∧ 255 < (edge 254#8 0#8).pc.toNat + 2) ∧
    (((Instr.jne 0#8 = .jeq 0#8 ∧ ((edge 253#8 0#8).setFl 1#8).fl.getLsbD 0 = false) ∨
        (Instr.jne 0#8 = .jne 0#8 ∧ ((edge 253#8 0#8).setFl 1#8).fl.getLsbD 0 = true)) ∧
      ((edge 253#8 0#8).setFl 1#8).addrOverflow = .fault ∧ ((edge 253#8 0#8).setFl 1#8).pc.toNat + 2 ≤ 255) :=
  ⟨⟨rfl, rfl, by decide⟩, by decide, by decide, by decide⟩

/-- The clauses about the fetch: an `LDI` at 254 and at 253. -/
theorem witness_fetchUnderFaultSetting : (∃ p, (storeBytes [0x82#8, 0#8, 7#8] 254#8 (edge 254#8 0xF4#8)).Running ∧
      poll (storeBytes [0x82#8, 0#8, 7#8] 254#8 (edge 254#8 0xF4#8)) = .ok p ∧
      decode (fetchBytes p) = .ok (.ldi 0#8 7#8, []) ∧ p.addrOverflow = .fault ∧
      255 < p.pc.toNat + (Instr.ldi 0#8 7#8).operands.length) ∧
    ∃ p, atEdge.Running ∧ poll atEdge = .ok p ∧ decode (fetchBytes p) = .ok (.ldi 0#8 7#8, []) ∧
      p.addrOverflow = .fault ∧ p.pc.toNat + (Instr.ldi 0#8 7#8).operands.length ≤ 255 :=
  ⟨⟨_, ⟨rfl, rfl⟩, rfl, rfl, rfl, by decide⟩, _, ⟨rfl, rfl⟩, rfl, rfl, rfl, by decide⟩

theorem witness_onlyCmpAndIretWriteFlags :
    (∃ t, exec (.cmp 0#8 1#8) base = .next t ∧ ¬t.Overflowed ∧ t.fl ≠ base.fl) ∧ ∃ p, poll (masked 1#8 1#8) = .ok p :=
  ⟨⟨_, rfl, nofun, by decide⟩, _, rfl⟩

theorem witness_onlyIretSetsInterruptEnable : (∃ t, exec .iret atReturn = .next t ∧ t.ie ≠ atReturn.ie) ∧
    (∃ p, poll base = .ok p ∧ p.ie = true) ∧ ∃ t, poll (maskedEdge 8#8) = .error t :=
  ⟨⟨_, rfl, by decide⟩, ⟨_, rfl, rfl⟩, _, rfl⟩

theorem witness_onlyPushStores :
    ∃ t, exec (.push 0#8) base = .next t ∧ ¬t.Overflowed ∧ t.load 0xF3#8 ≠ base.load 0xF3#8 :=
  ⟨_, rfl, nofun, by decide⟩

theorem witness_outIsAppendOnly : ∃ t, step (storeBytes [0x47#8, 0#8] 0x20#8 base) = .next t := ⟨_, rfl⟩

theorem witness_onlyHltHalts : (∃ t, exec .hlt base = .next t ∧ t.halted ≠ base.halted) ∧
    ∃ t, ({ base with halted := true } : State).halted = true ∧ step { base with halted := true } = .next t :=
  ⟨⟨_, rfl, by decide⟩, _, rfl, rfl⟩

theorem witness_invariantKeptByEveryStep : ∃ t, (storeBytes [0x45#8, 0#8] 0x20#8 base).Inv ∧
    step (storeBytes [0x45#8, 0#8] 0x20#8 base) = .next t :=
  ⟨_, ⟨by decide, nofun, nofun, fun _ => .inl rfl⟩, rfl⟩

theorem witness_decodeEncodeAgree : decode [0xA0#8, 0xFF#8, 8#8, 0#8] = .ok (.add 0xFF#8 8#8, [0#8]) := rfl

theorem witness_placedWordRunsNext :
    (decodeTableWord 24 0x080082 = some (.ldi 0#8 8#8) ∧ State.reset.addrOverflow = .wrap) ∧
    ((edge 253#8 0#8).pc.toNat + (Instr.ldi 0#8 8#8).operands.length ≤ 255) := by decide

end Sys2Proof.Tests
end

/-! Proofs about 20_memory.md: the frames of a store, of a register write, of Push and of Pop, and the statements they
settle. -/

namespace Sys2Proof.Machine

/-! ### A store -/

theorem sameMemoryBut_store (s : State) (a v : Byte) : SameMemoryBut a s (s.store a v) :=
  fun _ hb => State.load_store_ne s v hb

theorem sameRegsBut_store (rs : List RegIx) (s : State) (a v : Byte) : SameRegsBut rs s (s.store a v) :=
  fun r _ => State.store_reg s a v r

theorem sameControl_store (s : State) (a v : Byte) : SameControl s (s.store a v) := by
  simp [SameControl, SameRun]

/-- FETCH reads the cell at `PC` first (R93). -/
theorem head?_fetchBytes (s : State) : (fetchBytes s).head? = some (s.load s.pc) := rfl

/-- Settles O2: the cell reads as `Memory.read_write` says, and a store is an update of `mem` alone. -/
theorem memoryWriteReplacesOneCell : Obligations.MemoryWriteReplacesOneCell := by
  intro s a v
  have hfetch : (fetchBytes (s.store s.pc v)).head? = some v := by
    rw [head?_fetchBytes, State.store_pc, State.load_store_self]
  exact ⟨State.load_store_self s a v, sameMemoryBut_store s a v, sameRegsBut_store [] s a v, State.store_pc s a v,
    State.store_fl s a v, State.store_out s a v, sameControl_store s a v, hfetch⟩

/-! ### A register write -/

theorem sameRegsBut_setReg (s : State) (r : RegIx) (v : Byte) : SameRegsBut [r] s (s.setReg r v) :=
  fun _ hk => State.reg_setReg_ne s v (List.ne_of_not_mem_cons hk)

theorem sameControl_setReg (s : State) (r : RegIx) (v : Byte) : SameControl s (s.setReg r v) := by
  simp [SameControl, SameRun]

theorem writesOnlyRegs_setReg (s : State) (r : RegIx) (v : Byte) : WritesOnlyRegs [r] s (s.setReg r v) :=
  ⟨sameRegsBut_setReg s r v, State.setReg_fl s r v, State.setReg_load s r v, State.setReg_out s r v,
    sameControl_setReg s r v⟩

/-! ### Push and Pop -/

theorem pushed_reg_sp (v : Byte) (s : State) : (pushed v s).reg rSP = s.reg rSP - 1#8 := by
  rw [pushed, State.store_reg, State.reg_setReg_self]

theorem pushed_load_sp (v : Byte) (s : State) : (pushed v s).load (s.reg rSP - 1#8) = v :=
  State.load_store_self _ _ v

theorem sameMemoryBut_pushed (v : Byte) (s : State) : SameMemoryBut (s.reg rSP - 1#8) s (pushed v s) :=
  sameMemoryBut_store (s.setReg rSP _) _ v

theorem sameRegsBut_pushed (v : Byte) (s : State) : SameRegsBut [rSP] s (pushed v s) :=
  sameRegsBut_setReg s rSP _

theorem sameControl_pushed (v : Byte) (s : State) : SameControl s (pushed v s) := by
  simp [pushed, SameControl, SameRun]

theorem pushed_pc (v : Byte) (s : State) : (pushed v s).pc = s.pc := rfl

theorem pushed_fl (v : Byte) (s : State) : (pushed v s).fl = s.fl := rfl

theorem pushed_out (v : Byte) (s : State) : (pushed v s).out = s.out := rfl

theorem popped_reg_sp (s : State) : (popped s).reg rSP = s.reg rSP + 1#8 :=
  State.reg_setReg_self s rSP _

theorem popped_pc (s : State) : (popped s).pc = s.pc := rfl

theorem writesOnlyRegs_popped (s : State) : WritesOnlyRegs [rSP] s (popped s) :=
  writesOnlyRegs_setReg s rSP _

/-- Settles O3: under `wrap` Push answers `pushed v s` and Pop answers `popped s` (`push_ok`, `pop_ok`). -/
theorem pushAndPopPrimitives : Obligations.PushAndPopPrimitives := by
  constructor
  · intro v s hwrap
    exact ⟨pushed v s, push_ok v s (.inl hwrap), pushed_reg_sp v s, pushed_load_sp v s, sameMemoryBut_pushed v s,
      sameRegsBut_pushed v s, pushed_pc v s, pushed_fl v s, pushed_out v s, sameControl_pushed v s⟩
  · intro s hwrap
    exact ⟨popped s, pop_ok s (.inl hwrap), popped_reg_sp s, writesOnlyRegs_popped s, popped_pc s⟩

end Sys2Proof.Machine

/-! Proofs about 41_alu.md: a two-run rule for each part an ALU operation is built from, and R126 from them. -/

namespace Sys2Proof.Machine

/-! ### Two runs of one meaning -/

/-- The states agree on the registers the operand bytes `ks` name. -/
def AgreeOn (ks : List Byte) (s s' : State) : Prop := ∀ k ∈ ks, ∀ r, Names k r → s.reg r = s'.reg r

/-- From two states related by `P`, two runs of `g` that complete without a fault end in states related by `Q`. -/
def Relates (P Q : State → State → Prop) (g : State → Host.Outcome State Fault Refusal) : Prop :=
  ∀ s s' t t', P s s' → g s = .next t → g s' = .next t' → t.fault = none → t'.fault = none → Q t t'

theorem AgreeOn.setReg {ks : List Byte} {s s' : State} (h : AgreeOn ks s s') (r : RegIx) (v : Byte) :
    AgreeOn ks (s.setReg r v) (s'.setReg r v) := by
  intro k hk q hq
  rw [State.reg_setReg, State.reg_setReg, h k hk q hq]

/-- A run that raises does not complete. -/
theorem raise_fault_ne {f : FaultRecord} {s t : State} (h : raise f s = .next t) : t.fault ≠ none := by
  cases h
  exact Option.some_ne_none f

/-- An operand byte above 7 raises, so both runs go on with the register the byte names. -/
theorem relates_withReg {P Q : State → State → Prop} {a : Byte} {f : State → RegIx → Host.Outcome State Fault Refusal}
    (hf : ∀ r, Names a r → Relates P Q fun s => f s r) : Relates P Q fun s => withReg a s (f s) := by
  obtain ⟨r, hr⟩ | hgt := names_or_gt a
  · simpa only [withReg_of_names hr] using hf r hr
  · simp only [withReg_of_gt hgt]
    exact fun s s' t t' _ hs _ ht _ => absurd ht (raise_fault_ne hs)

theorem relates_withRegs {P Q : State → State → Prop} {a b : Byte}
    {f : State → RegIx → RegIx → Host.Outcome State Fault Refusal}
    (hf : ∀ ra rb, Names a ra → Names b rb → Relates P Q fun s => f s ra rb) :
    Relates P Q fun s => withRegs a b s (f s) :=
  relates_withReg (f := fun s ra => withReg b s fun rb => f s ra rb) fun ra ha =>
    relates_withReg (f := fun s rb => f s ra rb) fun rb hb => hf ra rb ha hb

/-- A run that completes has passed the test before a raise. -/
theorem relates_unless_raise {P Q : State → State → Prop} {c : State → Prop} [DecidablePred c] {e : State → FaultRecord}
    {g : State → Host.Outcome State Fault Refusal} (hg : Relates P Q g) :
    Relates P Q fun s => if c s then raise (e s) s else g s := by
  have hpassed : ∀ {s t : State}, (if c s then raise (e s) s else g s) = .next t → t.fault = none → g s = .next t := by
    intro s t hs ht
    split at hs
    · exact absurd ht (raise_fault_ne hs)
    · exact hs
  exact fun s s' t t' hP hs hs' ht ht' => hg s s' t t' hP (hpassed hs ht) (hpassed hs' ht') ht ht'

/-- An ADVANCE that raises nothing changes `PC` at most. -/
theorem finish_completes {o : Op} {s t : State} (h : finish o s = .next t) (ht : t.fault = none) :
    ∃ p, t = s.setPc p := by
  obtain hp | ⟨-, -, rfl⟩ := advance_next h
  · exact hp
  · cases ht

/-- ADVANCE after an update `u`: two runs may leave any two values of `PC`. -/
theorem relates_finish {P Q : State → State → Prop} {u : State → State} (o : Op)
    (hu : ∀ s s' p p', P s s' → Q ((u s).setPc p) ((u s').setPc p')) : Relates P Q fun s => finish o (u s) := by
  intro s s' t t' hP hs hs' ht ht'
  obtain ⟨p, rfl⟩ := finish_completes hs ht
  obtain ⟨p', rfl⟩ := finish_completes hs' ht'
  exact hu s s' p p' hP

/-! ### The registers of the ALU operations -/

/-- Writing a register with a value computed alike from agreeing states, then ADVANCE. -/
theorem finish_setReg_agree {ks : List Byte} (o : Op) (r : RegIx) {v : State → Byte}
    (hv : ∀ s s', AgreeOn ks s s' → v s = v s') :
    Relates (AgreeOn ks) (AgreeOn ks) fun s => finish o (s.setReg r (v s)) := by
  refine relates_finish o fun s s' p p' h => ?_
  have hw := h.setReg r (v s)
  rw [hv s s' h] at hw ⊢
  exact hw

theorem aluOne_agree (o : Op) (f : Byte → Byte) (a : Byte) : Relates (AgreeOn [a]) (AgreeOn [a]) (aluOne o f a) :=
  relates_withReg fun ra ha => finish_setReg_agree o ra fun s s' h => by
    rw [h a (by simp) ra ha]

theorem aluTwo_agree (o : Op) (f : Byte → Byte → Byte) (a b : Byte) :
    Relates (AgreeOn [a, b]) (AgreeOn [a, b]) (aluTwo o f a b) :=
  relates_withRegs fun ra rb ha hb => finish_setReg_agree o ra fun s s' h => by
    rw [h a (by simp) ra ha, h b (by simp) rb hb]

/-- DIV completes only past its zero test, and then it writes as the others do. -/
theorem execDiv_agree (a b : Byte) : Relates (AgreeOn [a, b]) (AgreeOn [a, b]) (execDiv a b) :=
  relates_withRegs fun ra rb ha hb => relates_unless_raise <| finish_setReg_agree .div ra fun s s' h => by
    rw [h a (by simp) ra ha, h b (by simp) rb hb]

/-- CMP writes no register. -/
theorem execCmp_agree (a b : Byte) : Relates (AgreeOn [a, b]) (AgreeOn [a, b]) (execCmp a b) :=
  relates_withRegs fun _ _ _ _ => relates_finish .cmp fun _ _ _ _ h => h

/-- Each of the eleven ALU operations keeps the agreement on its named registers. -/
theorem exec_alu_agree {i : Instr}
    (h : i.op ∈ [Op.add, .sub, .mul, .div, .and, .or, .xor, .shl, .inc, .dec, .cmp]) :
    Relates (AgreeOn i.operands) (AgreeOn i.operands) (exec i) := by
  cases i with
  | add a b | sub a b | mul a b | and a b | or a b | xor a b | shl a b => exact aluTwo_agree _ _ a b
  | div a b => exact execDiv_agree a b
  | cmp a b => exact execCmp_agree a b
  | inc a => exact aluOne_agree .inc (fun x => x + 1#8) a
  | dec a => exact aluOne_agree .dec (fun x => x - 1#8) a
  | hlt | iret | push | pop | prn | pra | jmp | jeq | jne | ldi => simp [Instr.op] at h

/-! ### The flags of CMP -/

/-- Of the old `FL` a comparison reads bits 7 to 3 only (R121). -/
theorem compareFlags_congr {fl fl' : Byte} (h : fl &&& 0xF8#8 = fl' &&& 0xF8#8) (x y : Byte) :
    compareFlags fl x y = compareFlags fl' x y :=
  congrArg (· ||| compareFlag x y) h

theorem execCmp_fl (a b : Byte) :
    Relates (fun s s' => AgreeOn [a, b] s s' ∧ s.fl &&& 0xF8#8 = s'.fl &&& 0xF8#8) (fun t t' => t.fl = t'.fl)
      (execCmp a b) := by
  refine relates_withRegs fun ra rb ha hb => relates_finish .cmp fun s s' p p' ⟨h, hfl⟩ => ?_
  rw [State.setPc_fl, State.setPc_fl, State.setFl_fl, State.setFl_fl, h a (by simp) ra ha, h b (by simp) rb hb]
  exact compareFlags_congr hfl _ _

theorem exec_cmp_fl {i : Instr} (h : i.op = .cmp) :
    Relates (fun s s' => AgreeOn i.operands s s' ∧ s.fl &&& 0xF8#8 = s'.fl &&& 0xF8#8) (fun t t' => t.fl = t'.fl)
      (exec i) := by
  cases i with
  | cmp a b => exact execCmp_fl a b
  | _ => cases h

/-- Settles O13: the registers by `exec_alu_agree`, CMP's `FL` by `exec_cmp_fl`. -/
theorem aluOperationsArePure : Obligations.AluOperationsArePure := by
  intro i s s' t t' hop hregs hfl hs hs' ht ht'
  exact ⟨exec_alu_agree hop s s' t t' hregs hs hs' ht ht',
    fun hcmp => exec_cmp_fl hcmp s s' t t' ⟨hregs, hfl hcmp⟩ hs hs' ht ht'⟩

end Sys2Proof.Machine

/-! Proofs about 60_exceptions.md: what the state after an interrupt entry holds, and when dispatch enters. -/

namespace Sys2Proof.Machine

/-! ### The acknowledgement that begins an entry -/

theorem acknowledge_reg_is (i : RegIx) (s : State) : (acknowledge i s).reg rIS = s.reg rIS &&& ~~~ lineBit i :=
  State.reg_setReg_self _ rIS _

theorem acknowledge_reg_ne {r : RegIx} (hr : r ≠ rIS) (i : RegIx) (s : State) : (acknowledge i s).reg r = s.reg r :=
  State.reg_setReg_ne _ _ hr

theorem acknowledge_reg_sp (i : RegIx) (s : State) : (acknowledge i s).reg rSP = s.reg rSP :=
  acknowledge_reg_ne (by decide) i s

/-- The bytes of the frame in terms of the interrupted state: all but `IS` are as they were (R186). -/
theorem frameBytes_acknowledge (i : RegIx) (s : State) :
    frameBytes (acknowledge i s) =
      [s.pc, s.fl, s.reg 0, s.reg 1, s.reg 2, s.reg 3, s.reg 4, s.reg 5, s.reg rIS &&& ~~~ lineBit i] := by
  have hkept : ∀ r, r ≠ rIS → (acknowledge i s).reg r = s.reg r := fun _ hr => acknowledge_reg_ne hr i s
  rw [← acknowledge_reg_is, frameBytes, hkept 0 (by decide), hkept 1 (by decide), hkept 2 (by decide),
    hkept 3 (by decide), hkept 4 (by decide), hkept 5 (by decide)]
  rfl

/-! ### The state after an entry -/

theorem entered_reg_is (i : RegIx) (s : State) : (entered i s).reg rIS = s.reg rIS &&& ~~~ lineBit i := by
  obtain ⟨-, -, -, -, -, hreg⟩ := pushedAll_same (frameBytes (acknowledge i s)) (acknowledge i s)
  exact (hreg rIS (by decide)).trans (acknowledge_reg_is i s)

theorem entered_reg_sp (i : RegIx) (s : State) : (entered i s).reg rSP = s.reg rSP - 9#8 := by
  rw [← acknowledge_reg_sp i s]
  exact pushedAll_sp (frameBytes (acknowledge i s)) (acknowledge i s)

theorem sameRegsBut_entered (i : RegIx) (s : State) : SameRegsBut [rIS, rSP] s (entered i s) := by
  intro r hr
  obtain ⟨his, hsp⟩ : r ≠ rIS ∧ r ≠ rSP := by simpa using hr
  obtain ⟨-, -, -, -, -, hreg⟩ := pushedAll_same (frameBytes (acknowledge i s)) (acknowledge i s)
  exact (hreg r hsp).trans (acknowledge_reg_ne his i s)

/-- What entry leaves of `IE`, `FL`, `OUT` and the run's own state (R186). -/
theorem entered_same (i : RegIx) (s : State) :
    (entered i s).ie = false ∧ (entered i s).fl = s.fl ∧ (entered i s).out = s.out ∧ SameRun s (entered i s) := by
  obtain ⟨-, hfl, hie, hout, hrun, -⟩ := pushedAll_same (frameBytes (acknowledge i s)) (acknowledge i s)
  exact ⟨hie, hfl, hout, hrun⟩

/-- Byte `k` of the frame stands `k + 1` below the interrupted stack pointer (R187). -/
theorem entered_load_frame (i : RegIx) (s : State) (k : Nat) (v : Byte)
    (h : (frameBytes (acknowledge i s))[k]? = some v) :
    (entered i s).load (frameAddr (s.reg rSP) (k + 1)) = v := by
  obtain ⟨hk, rfl⟩ := List.getElem?_eq_some_iff.mp h
  rw [← acknowledge_reg_sp i s]
  exact pushedAll_load (frameBytes (acknowledge i s)) (acknowledge i s) (by simp [frameBytes]) k hk

theorem entered_load_outside (i : RegIx) (s : State) (b : Byte)
    (hb : ∀ k, 1 ≤ k → k ≤ 9 → b ≠ frameAddr (s.reg rSP) k) : (entered i s).load b = s.load b := by
  rw [← acknowledge_reg_sp i s] at hb
  exact pushedAll_load_outside (frameBytes (acknowledge i s)) (acknowledge i s) b hb

/-- `PC` is the vector as it reads after the pushes: loading `PC` changes no cell (R186). -/
theorem entered_pc (i : RegIx) (s : State) : (entered i s).pc = (entered i s).load (vectorAddr i) := rfl

/-- An entry that raises nothing is the entry of R186 and R187. -/
theorem entersInterrupt_entered (i : RegIx) (s : State) : EntersInterrupt i s (entered i s) := by
  obtain ⟨hie, hfl, hout, hrun⟩ := entered_same i s
  have hframe := entered_load_frame i s
  simp only [frameBytes_acknowledge] at hframe
  refine ⟨hie, entered_reg_is i s, entered_reg_sp i s, sameRegsBut_entered i s, hfl, hout, hrun,
    hframe 0 _ rfl, hframe 1 _ rfl, hframe 2 _ rfl, hframe 3 _ rfl, hframe 4 _ rfl, hframe 5 _ rfl, hframe 6 _ rfl,
    hframe 7 _ rfl, ?_, entered_load_outside i s, entered_pc i s⟩
  rw [entered_reg_is]
  exact hframe 8 _ rfl

/-! ### Dispatch -/

theorem interruptDispatch_of_disabled {s : State} (h : s.ie = false) : interruptDispatch s = .ok s := by
  rw [interruptDispatch, h]
  rfl

/-- With no bit set in `IM & IS` no line is ready (R185). -/
theorem firstLine_of_masked {s : State} (h : s.reg rIM &&& s.reg rIS = 0#8) : firstLine s = none := by
  cases hl : firstLine s with
  | none => rfl
  | some i =>
    obtain ⟨hready, -⟩ := firstLine_some hl
    rw [lineReady_eq, h, BitVec.getLsbD_zero] at hready
    cases hready

theorem interruptDispatch_of_masked {s : State} (h : s.reg rIM &&& s.reg rIS = 0#8) : interruptDispatch s = .ok s := by
  obtain ⟨-, hok⟩ | ⟨i, -, hl, -⟩ := interruptDispatch_cases s
  · exact hok
  · rw [firstLine_of_masked h] at hl
    cases hl

/-- Settles O23: a selected line's entry raises nothing under `wrap` and leaves `entered i s`. (The name `interruptEntry` is
the model's operation.) -/
theorem interruptEntry_spec : Obligations.InterruptEntry := by
  refine ⟨fun _ => interruptDispatch_of_disabled, fun _ => interruptDispatch_of_masked, fun s i hsel hwrap => ?_⟩
  have hok : interruptDispatch s = .ok (entered i s) :=
    (interruptDispatch_of_selects hsel).trans (interruptEntry_ok i s (.inl hwrap))
  exact ⟨entered i s, hok, entersInterrupt_entered i s⟩

end Sys2Proof.Machine

/-! Proofs about 30_encoding.md: the decoder and the encoder meet at the operations of the mapping, and the statements this
settles. -/

namespace Sys2Proof

/-! ### The mapping -/

theorem lookupOp_code (o : Op) : lookupOp o.code = some o := by
  cases o <;> rfl

/-- The lookup finds an operation by its own byte only. -/
theorem eq_code_of_lookupOp {ir : Byte} {o : Op} (h : lookupOp ir = some o) : ir = o.code :=
  (beq_iff_eq.mp (List.find?_some (p := fun o : Op => o.code == ir) h)).symm

/-- A byte is no opcode exactly when it is none of the mapping's bytes (R80). -/
theorem lookupOp_eq_none_iff (b : Byte) : lookupOp b = none ↔ b.toNat ∉ Op.all.map fun o => o.code.toNat := by
  simp only [lookupOp, List.find?_eq_none, List.mem_map, beq_iff_eq, BitVec.toNat_inj, not_exists, not_and]

/-- No operation of the mapping has four bytes (R79). -/
theorem opWidth_code_ne_four (o : Op) : opWidth o.code ≠ 4 := by
  cases o <;> decide

theorem opWidth_eq (ir : Byte) : opWidth ir = (ir.toNat >>> 6) % 4 + 1 := by
  rw [opWidth, BitVec.extractLsb'_toNat]

/-! ### Encoding and decoding by operation -/

/-- The bytes of the operation `o` with operand bytes `a` and `b`, as many of them as the opcode's width asks for (R71). -/
def opBytes (o : Op) (a b : Byte) : List Byte := o.code :: [a, b].take (opWidth o.code - 1)

theorem encode_instr (o : Op) (a b : Byte) : encode (o.instr a b) = opBytes o a b := by
  cases o <;> rfl

/-- The architect's table of encodings speaks of every instruction. -/
theorem encoding_statement (i : Instr) : Laws.Encoding.Statement i := by
  cases i with
  | hlt => exact Laws.Encoding.hlt
  | iret => exact Laws.Encoding.iret
  | push a => exact Laws.Encoding.push a
  | pop a => exact Laws.Encoding.pop a
  | prn a => exact Laws.Encoding.prn a
  | pra a => exact Laws.Encoding.pra a
  | jmp a => exact Laws.Encoding.jmp a
  | jeq a => exact Laws.Encoding.jeq a
  | jne a => exact Laws.Encoding.jne a
  | inc a => exact Laws.Encoding.inc a
  | dec a => exact Laws.Encoding.dec a
  | ldi a b => exact Laws.Encoding.ldi a b
  | add a b => exact Laws.Encoding.add a b
  | sub a b => exact Laws.Encoding.sub a b
  | mul a b => exact Laws.Encoding.mul a b
  | div a b => exact Laws.Encoding.div a b
  | cmp a b => exact Laws.Encoding.cmp a b
  | and a b => exact Laws.Encoding.and a b
  | or a b => exact Laws.Encoding.or a b
  | xor a b => exact Laws.Encoding.xor a b
  | shl a b => exact Laws.Encoding.shl a b

theorem length_encode (i : Instr) : (encode i).length = opWidth i.op.code := by
  obtain ⟨-, hwidth, -⟩ := encoding_statement i
  rw [hwidth, encode, List.length_cons]

theorem exists_eq_instr (i : Instr) : ∃ o a b, i = Op.instr o a b := by
  obtain ⟨-, -, hinstr⟩ := encoding_statement i
  exact ⟨_, _, _, hinstr.symm⟩

theorem decode_opBytes (o : Op) (a b : Byte) (rest : List Byte) :
    decode (opBytes o a b ++ rest) = .ok (o.instr a b, rest) := by
  cases o <;> rfl

/-- What decodes begins with the bytes of one operation. -/
theorem decode_ok {bytes rest : List Byte} {i : Instr} (h : decode bytes = .ok (i, rest)) :
    ∃ o a b, i = Op.instr o a b ∧ bytes = opBytes o a b ++ rest := by
  unfold decode at h
  split at h
  · cases h
  · split at h
    · cases h
    · next o hlookup =>
      obtain rfl := eq_code_of_lookupOp hlookup
      split at h
      · next hw => cases h; exact ⟨o, 0#8, 0#8, rfl, by rw [opBytes, hw]; rfl⟩
      · next a _ hw => cases h; exact ⟨o, a, 0#8, rfl, by rw [opBytes, hw]; rfl⟩
      · next a b _ hw => cases h; exact ⟨o, a, b, rfl, by rw [opBytes, hw]; rfl⟩
      · cases h
      · cases h

theorem decode_encode (i : Instr) (rest : List Byte) : decode (encode i ++ rest) = .ok (i, rest) := by
  obtain ⟨o, a, b, rfl⟩ := exists_eq_instr i
  rw [encode_instr, decode_opBytes]

theorem eq_encode_of_decode {bytes rest : List Byte} {i : Instr} (h : decode bytes = .ok (i, rest)) :
    bytes = encode i ++ rest := by
  obtain ⟨o, a, b, rfl, hbytes⟩ := decode_ok h
  rw [hbytes, encode_instr]

/-- Settles O46: both directions go through the operation of the instruction (`decode_opBytes`, `decode_ok`). -/
theorem decodeEncodeAgree : Obligations.DecodeEncodeAgree :=
  ⟨decode_encode, fun _ _ _ => eq_encode_of_decode⟩

/-- Settles O47: each word is the encoding of its instruction. -/
theorem writtenOutWordsDecode : Obligations.WrittenOutWordsDecode :=
  ⟨decode_encode .hlt [], decode_encode .iret [], decode_encode (.push 3#8) [], decode_encode (.jmp 2#8) [],
    decode_encode (.prn 0#8) [], decode_encode (.ldi 0#8 8#8) [], decode_encode (.add 0#8 1#8) []⟩

/-! ### Legal opcodes and their structure bits -/

theorem decode_of_lookupOp_none {b : Byte} (h : lookupOp b = none) (rest : List Byte) :
    decode (b :: rest) = .error (.invalidOpcode b) := by
  rw [decode, h]

/-- An opcode of the mapping is never refused as a byte; bytes may only be missing after it. -/
theorem decode_code_ne_invalidOpcode (o : Op) (rest : List Byte) (b : Byte) :
    decode (o.code :: rest) ≠ .error (.invalidOpcode b) := by
  intro h
  rw [decode, lookupOp_code] at h
  dsimp only at h
  split at h
  · cases h
  · cases h
  · cases h
  · next hw => exact opWidth_code_ne_four o hw
  · cases h

/-- Settles O48: the decoder refuses a first byte exactly where the lookup finds no operation. -/
theorem exactlyTwentyOneOpcodes : Obligations.ExactlyTwentyOneOpcodes := by
  intro b rest
  refine Iff.trans ⟨fun h => ?_, fun h => decode_of_lookupOp_none h rest⟩ (lookupOp_eq_none_iff b)
  cases hlookup : lookupOp b with
  | none => rfl
  | some o =>
    obtain rfl := eq_code_of_lookupOp hlookup
    exact absurd h (decode_code_ne_invalidOpcode o rest _)

theorem opSetsPc_code_iff (o : Op) : opSetsPc o.code = true ↔ o ∈ [Op.iret, .jmp, .jeq, .jne] := by
  cases o <;> decide

/-- Settles O49: the length is `length_encode`, the bits are `opWidth_eq` and `opSetsPc_code_iff`. -/
theorem widthAndSetsPcBits : Obligations.WidthAndSetsPcBits :=
  fun i => ⟨(length_encode i).trans (opWidth_eq _), (length_encode i).symm, opSetsPc_code_iff i.op⟩

end Sys2Proof

/-! Proofs about all instructions at once (10_state.md, 40_execution_cycle.md, 60_exceptions.md): what each kind of `Effect`
does to each field, from it who writes what, and the invariant. -/

namespace Sys2Proof.Machine

/-! ### What an effect does, field by field -/

theorem Effect.ie {s e : State} {i : Instr} (h : Effect s i e) : e.ie = s.ie ∨ (i = .iret ∧ e.ie = true) := by
  cases h with
  | ret => exact .inr ⟨rfl, (returned_same s).1⟩
  | write | flags | push | pop | jump | emit | halt => exact .inl rfl

theorem Effect.halted {s e : State} {i : Instr} (h : Effect s i e) :
    e.halted = s.halted ∨ (i = .hlt ∧ e.halted = true) := by
  cases h with
  | ret =>
    obtain ⟨-, -, -, hhalted, -⟩ := returned_same s
    exact .inl hhalted
  | halt => exact .inr ⟨rfl, rfl⟩
  | write | flags | push | pop | jump | emit => exact .inl rfl

theorem Effect.out {s e : State} {i : Instr} (h : Effect s i e) :
    e.out = s.out ∨ (i.op ∈ [Op.prn, .pra] ∧ ∃ x, e.out = s.out ++ [x]) := by
  cases h with
  | ret =>
    obtain ⟨-, hout, -⟩ := returned_same s
    exact .inl hout
  | emit _ x hop => exact .inr ⟨hop, x, rfl⟩
  | write | flags | push | pop | jump | halt => exact .inl rfl

theorem Effect.fl {s e : State} {i : Instr} (h : Effect s i e) : e.fl = s.fl ∨ i.op = .cmp ∨ i.op = .iret := by
  cases h with
  | ret => exact .inr (.inr rfl)
  | flags => exact .inr (.inl rfl)
  | write | push | pop | jump | emit | halt => exact .inl rfl

/-- PUSH writes the cell below `SP`; every other effect keeps memory. -/
theorem Effect.mem {s e : State} {i : Instr} (h : Effect s i e) :
    e.mem = s.mem ∨ (i.op = .push ∧ ∃ v, e = pushed v s) := by
  cases h with
  | ret =>
    obtain ⟨-, -, hmem, -⟩ := returned_same s
    exact .inl hmem
  | push _ v => exact .inr ⟨rfl, v, rfl⟩
  | write | flags | pop | jump | emit | halt => exact .inl rfl

theorem State.load_eq_of_mem_eq {s t : State} (h : t.mem = s.mem) (b : Byte) : t.load b = s.load b := by
  rw [State.load, State.load, h]

theorem wf_pushed (v : Byte) (s : State) (h : Memory.wf s.mem = true) : Memory.wf (pushed v s).mem = true :=
  State.wf_store _ _ _ h

theorem Effect.wf_mem {s e : State} {i : Instr} (h : Effect s i e) (hm : Memory.wf s.mem = true) :
    Memory.wf e.mem = true := by
  obtain hmem | ⟨-, v, rfl⟩ := h.mem
  · rw [hmem, hm]
  · exact wf_pushed v s hm

theorem Effect.load {s e : State} {i : Instr} (h : Effect s i e) (b : Byte) :
    e.load b = s.load b ∨ (i.op = .push ∧ b = s.reg rSP - 1#8) := by
  obtain hmem | ⟨hop, v, rfl⟩ := h.mem
  · exact .inl (State.load_eq_of_mem_eq hmem b)
  · by_cases hb : b = s.reg rSP - 1#8
    · exact .inr ⟨hop, hb⟩
    · exact .inl (sameMemoryBut_pushed v s b hb)

/-! ### Who writes what -/

/-- `IE`, `HALTED` and `OUT` come from the effect even where the instruction raises (R171, R172). -/
theorem exec_next_control {i : Instr} {s t : State} (h : exec i s = .next t) :
    ∃ e, (e = s ∨ Effect s i e) ∧ t.ie = e.ie ∧ t.halted = e.halted ∧ t.out = e.out := by
  obtain ⟨f, -, rfl⟩ | ⟨e, p, he, rfl⟩ | ⟨-, e, a, he, -, rfl⟩ := exec_next h
  · exact ⟨s, .inl rfl, rfl, rfl, rfl⟩
  · exact ⟨e, .inr he, rfl, rfl, rfl⟩
  · exact ⟨e, he, rfl, rfl, rfl⟩

/-- `FL` and memory come from the effect unless `AddressOverflow` leaves them unspecified (R172). -/
theorem exec_next_data {i : Instr} {s t : State} (h : exec i s = .next t) (hno : ¬ t.Overflowed) :
    ∃ e, (e = s ∨ Effect s i e) ∧ t.fl = e.fl ∧ t.mem = e.mem := by
  obtain ⟨f, -, rfl⟩ | ⟨e, p, he, rfl⟩ | ⟨-, e, a, -, -, rfl⟩ := exec_next h
  · exact ⟨s, .inl rfl, rfl, rfl⟩
  · exact ⟨e, .inr he, rfl, rfl⟩
  · exact absurd (overflow_overflowed a e) hno

theorem exec_ie {i : Instr} {s t : State} (h : exec i s = .next t) (hne : t.ie ≠ s.ie) : i = .iret ∧ t.ie = true := by
  obtain ⟨e, rfl | he, hie, -, -⟩ := exec_next_control h
  · exact absurd hie hne
  · obtain hkept | ⟨hi, hset⟩ := he.ie
    · exact absurd (hie.trans hkept) hne
    · exact ⟨hi, hie.trans hset⟩

theorem exec_halted {i : Instr} {s t : State} (h : exec i s = .next t) (hne : t.halted ≠ s.halted) :
    i = .hlt ∧ t.halted = true := by
  obtain ⟨e, rfl | he, -, hhalted, -⟩ := exec_next_control h
  · exact absurd hhalted hne
  · obtain hkept | ⟨hi, hset⟩ := he.halted
    · exact absurd (hhalted.trans hkept) hne
    · exact ⟨hi, hhalted.trans hset⟩

theorem exec_fl {i : Instr} {s t : State} (h : exec i s = .next t) (hno : ¬ t.Overflowed) (hne : t.fl ≠ s.fl) :
    i.op = .cmp ∨ i.op = .iret := by
  obtain ⟨e, rfl | he, hfl, -⟩ := exec_next_data h hno
  · exact absurd hfl hne
  · exact he.fl.resolve_left fun hkept => hne (hfl.trans hkept)

/-- Settles O41: of the effects only PUSH's changes a cell (`Effect.load`). -/
theorem onlyPushStores : Obligations.OnlyPushStores := by
  intro i s t b h hno hne
  obtain ⟨e, he, -, hmem⟩ := exec_next_data h hno
  have hload : t.load b = e.load b := State.load_eq_of_mem_eq hmem b
  obtain rfl | he := he
  · exact absurd hload hne
  · exact (he.load b).resolve_left fun hkept => hne (hload.trans hkept)

/-- An instruction appends at most one event, also where it raises (R12). -/
theorem exec_out {i : Instr} {s t : State} (h : exec i s = .next t) :
    ∃ l : List OutEvent, t.out = s.out ++ l ∧ l.length ≤ 1 := by
  obtain ⟨e, rfl | he, -, -, hout⟩ := exec_next_control h
  · exact ⟨[], by rw [hout, List.append_nil], by simp⟩
  · obtain hkept | ⟨-, x, hemit⟩ := he.out
    · exact ⟨[], by rw [hout, hkept, List.append_nil], by simp⟩
    · exact ⟨[x], hout.trans hemit, by simp⟩

/-! ### POLL, and the cycle as a whole -/

theorem poll_error {s t : State} (h : poll s = .error t) :
    s.addrOverflow = .fault ∧ s.ie = true ∧ t = overflow 0#8 ((pollSources s).setIe false) := by
  obtain ⟨p, hp⟩ | ⟨hset, hie, hp⟩ := poll_cases s <;> rw [hp] at h <;> cases h
  exact ⟨hset, hie, rfl⟩

/-- POLL leaves what its sources leave, or `IE` is 0 after an entry (R186). -/
theorem poll_ok {s p : State} (h : poll s = .ok p) :
    p = pollSources s ∨ ∃ i, s.ie = true ∧ firstLine (pollSources s) = some i ∧ p = entered i (pollSources s) := by
  obtain ⟨-, rfl⟩ | ⟨i, hie, hline, rfl⟩ := interruptDispatch_ok h
  · exact .inl rfl
  · exact .inr ⟨i, hie, hline, rfl⟩

theorem entered_ie (i : RegIx) (s : State) : (entered i s).ie = false := by
  obtain ⟨hie, -⟩ := entered_same i s
  exact hie

/-- Settles O39: `FL` by cases on the effect, and POLL keeps it (`poll_same`). -/
theorem onlyCmpAndIretWriteFlags : Obligations.OnlyCmpAndIretWriteFlags := by
  refine ⟨fun i s t => exec_fl, fun s p h => ?_⟩
  obtain ⟨hfl, -⟩ := poll_same h
  exact hfl

/-- Settles O40: an entry clears `IE`, the poll's sources keep it. -/
theorem onlyIretSetsInterruptEnable : Obligations.OnlyIretSetsInterruptEnable := by
  refine ⟨fun i s t => exec_ie, fun s p h hie => ?_, fun s t h => ?_⟩
  · obtain rfl | ⟨i, hs, -⟩ := poll_ok h
    · exact hie
    · exact hs
  · obtain ⟨-, hs, rfl⟩ := poll_error h
    exact ⟨hs, rfl⟩

/-- A next state of FETCH to ADVANCE: the decoded instruction's, or the polled state with a fault raised in the fetch. -/
theorem fetchExecute_next {p t : State} (h : fetchExecute p = .next t) :
    (∃ i rest, decode (fetchBytes p) = .ok (i, rest) ∧ exec i p = .next t) ∨
      (t = p.setFault (.invalidOpcode (p.load p.pc) p.pc) ∧ ∃ e, decode (fetchBytes p) = .error e) ∨
      (p.addrOverflow = .fault ∧ t = overflow p.pc p) := by
  obtain ⟨i, rest, hdec, -, he⟩ | ⟨he, herr⟩ | ⟨hset, he⟩ := fetchExecute_cases p <;> rw [he] at h
  · exact .inl ⟨i, rest, hdec, h⟩
  · cases h; exact .inr (.inl ⟨rfl, herr⟩)
  · cases h; exact .inr (.inr ⟨hset, rfl⟩)

theorem fetchExecute_out {p t : State} (h : fetchExecute p = .next t) :
    ∃ l : List OutEvent, t.out = p.out ++ l ∧ l.length ≤ 1 := by
  obtain ⟨i, rest, -, hexec⟩ | ⟨rfl, -⟩ | ⟨-, rfl⟩ := fetchExecute_next h
  · exact exec_out hexec
  · exact ⟨[], (List.append_nil _).symm, by simp⟩
  · exact ⟨[], (List.append_nil _).symm, by simp⟩

/-- Settles O42: POLL keeps `OUT` and the instruction appends at most one event (`exec_out`). -/
theorem outIsAppendOnly : Obligations.OutIsAppendOnly := by
  intro s t h
  obtain ⟨-, ⟨-, rfl⟩ | ⟨-, ⟨p, hp, hexec⟩ | herr⟩⟩ := step_next h
  · exact ⟨[], (List.append_nil _).symm, by simp⟩
  · obtain ⟨-, -, -, hout, -⟩ := poll_same hp
    exact hout ▸ fetchExecute_out hexec
  · obtain ⟨-, -, rfl⟩ := poll_error herr
    exact ⟨[], (List.append_nil _).symm, by simp⟩

/-- Settles O43: of the effects only HLT's writes `HALTED`; a halted core takes no cycle. -/
theorem onlyHltHalts : Obligations.OnlyHltHalts := by
  refine ⟨fun i s t => exec_halted, fun s t hs h => ?_⟩
  obtain ⟨-, ⟨-, rfl⟩ | ⟨hrun, -⟩⟩ := step_next h
  · exact hs
  · rw [hs] at hrun; cases hrun

/-! ### The invariant -/

theorem not_overflowed_of_fault_none {s : State} (h : s.fault = none) : ¬ s.Overflowed := by
  rintro ⟨a, pc, hf⟩
  rw [h] at hf
  cases hf

theorem overflowed_code {s : State} {f : FaultRecord} (hf : s.fault = some f) (h : s.Overflowed) : f.code = 4 := by
  obtain ⟨a, pc, hf'⟩ := h
  rw [hf] at hf'
  cases hf'
  rfl

theorem RaisedBy.pc_eq {i : Instr} {s : State} {f : FaultRecord} (h : RaisedBy i s f) : f.pc = s.pc := by
  obtain ⟨k, -, -, rfl⟩ | ⟨-, rfl⟩ := h <;> rfl

/-- What an instruction raises precisely has code 2 or 3 (R170). -/
theorem RaisedBy.code_eq {i : Instr} {s : State} {f : FaultRecord} (h : RaisedBy i s f) : f.code = 2 ∨ f.code = 3 := by
  obtain ⟨k, -, -, rfl⟩ | ⟨-, rfl⟩ := h
  · exact .inr rfl
  · exact .inl rfl

theorem inv_of_no_fault {s : State} (hm : Memory.wf s.mem = true) (hf : s.fault = none) : s.Inv := by
  refine ⟨hm, fun f h => ?_, fun h => absurd h (not_overflowed_of_fault_none hf), fun _ => .inl hf⟩
  rw [hf] at h
  cases h

/-- A precise fault recorded in a core that goes on (R171). -/
theorem inv_setFault {s : State} {f : FaultRecord} (hm : Memory.wf s.mem = true) (hh : s.halted = false)
    (hpc : f.pc = s.pc) (hcode : f.code ≠ 4) : (s.setFault f).Inv := by
  refine ⟨hm, fun g hg => ?_, fun h => absurd (overflowed_code rfl h) hcode, fun h => ?_⟩
  · cases hg; exact hpc
  · rw [State.setFault_halted, hh] at h; cases h

/-- What raising `AddressOverflow` leaves meets the invariant whatever the state before was (R172). -/
theorem inv_overflow (a : Byte) {s : State} (h : s.addrOverflow = .fault) : (overflow a s).Inv :=
  ⟨wf_overflow a s, fun f hf => by cases hf; rfl, fun _ => h, fun _ => .inr (overflow_overflowed a s)⟩

theorem exec_inv {i : Instr} {s t : State} (hm : Memory.wf s.mem = true) (hrun : s.Running) (h : exec i s = .next t) :
    t.Inv := by
  obtain ⟨hh, hf⟩ := hrun
  obtain ⟨f, hraised, rfl⟩ | ⟨e, p, he, rfl⟩ | ⟨hset, e, a, he, -, rfl⟩ := exec_next h
  · exact inv_setFault hm hh hraised.pc_eq (by obtain hc | hc := hraised.code_eq <;> omega)
  · exact inv_of_no_fault (he.wf_mem hm) (he.same.1.trans hf)
  · obtain rfl | he := he
    · exact inv_overflow a hset
    · obtain ⟨-, -, hkept, -⟩ := he.same
      exact inv_overflow a (hkept.trans hset)

theorem fetchExecute_inv {p t : State} (hm : Memory.wf p.mem = true) (hrun : p.Running) (h : fetchExecute p = .next t) :
    t.Inv := by
  obtain ⟨i, rest, -, hexec⟩ | ⟨rfl, -⟩ | ⟨hset, rfl⟩ := fetchExecute_next h
  · exact exec_inv hm hrun hexec
  · exact inv_setFault hm hrun.1 rfl (by simp [FaultRecord.code])
  · exact inv_overflow p.pc hset

theorem poll_running {s p : State} (h : poll s = .ok p) (hrun : s.Running) : p.Running := by
  obtain ⟨-, hhalted, hfault, -⟩ := poll_same h
  exact ⟨hhalted.trans hrun.1, hfault.trans hrun.2⟩

/-- Settles O44: each way a cycle can end meets the invariant (`inv_of_no_fault`, `inv_setFault`, `inv_overflow`). -/
theorem invariantKeptByEveryStep : Obligations.InvariantKeptByEveryStep := by
  intro s t hinv h
  obtain ⟨hm, -⟩ := hinv
  obtain ⟨hf, ⟨-, rfl⟩ | ⟨hh, ⟨p, hp, hexec⟩ | herr⟩⟩ := step_next h
  · exact inv_of_no_fault hm hf
  · exact fetchExecute_inv (wf_poll hp hm) (poll_running hp ⟨hh, hf⟩) hexec
  · obtain ⟨hset, -, rfl⟩ := poll_error herr
    exact inv_overflow 0#8 hset

/-- Settles O45: after reset no fault is recorded. -/
theorem invariantAtReset : Obligations.InvariantAtReset :=
  inv_of_no_fault State.wf_reset rfl

end Sys2Proof.Machine

/-! Proofs about memory, the stack and the launch (10_state.md section 8, 20_memory.md, 70_reset_and_hazards.md): the canonical
form is unique, pops give back what pushes stored, and what a launched state holds. -/

namespace Sys2Proof.Machine

/-! ### The canonical form -/

theorem Memory.wfFrom_cons {lo k : Nat} {v : Byte} {m : List Host.Cell} (h : Memory.wfFrom lo ((k, v) :: m) = true) :
    lo ≤ k ∧ k < 256 ∧ v ≠ Memory.unlisted ∧ Memory.wfFrom (k + 1) m = true := by
  simp only [Memory.wfFrom, Bool.and_eq_true, decide_eq_true_eq, bne_iff_ne] at h
  obtain ⟨⟨⟨hlo, hk⟩, hv⟩, hm⟩ := h
  exact ⟨hlo, hk, hv, hm⟩

theorem Memory.read_cons_self (k : Nat) (v : Byte) (m : List Host.Cell) : Memory.read ((k, v) :: m) k = v := by
  rw [Memory.read, if_pos rfl]

theorem Memory.read_cons_ne {k a : Nat} (h : k ≠ a) (v : Byte) (m : List Host.Cell) :
    Memory.read ((k, v) :: m) a = Memory.read m a := by
  rw [Memory.read, if_neg h]

/-- Below its lowest address a canonical list names no cell. -/
theorem Memory.read_below {lo a : Nat} {m : List Host.Cell} (h : Memory.wfFrom lo m = true) (ha : a < lo) :
    Memory.read m a = Memory.unlisted := by
  induction m generalizing lo with
  | nil => rfl
  | cons c m ih =>
    obtain ⟨k, v⟩ := c
    obtain ⟨hlo, -, -, hm⟩ := Memory.wfFrom_cons h
    rw [Memory.read_cons_ne (by omega), ih hm (by omega)]

/-- The first cell of a canonical list reads as something an unlisted cell does not hold. -/
theorem Memory.read_first_ne {lo k : Nat} {v : Byte} {m : List Host.Cell} (h : Memory.wfFrom lo ((k, v) :: m) = true) :
    Memory.read ((k, v) :: m) k ≠ Memory.unlisted := by
  obtain ⟨-, -, hv, -⟩ := Memory.wfFrom_cons h
  rwa [Memory.read_cons_self]

/-- Canonical lists that read alike begin at the same address. -/
theorem Memory.first_le {lo lo' k k' : Nat} {v v' : Byte} {m m' : List Host.Cell}
    (h : Memory.wfFrom lo ((k, v) :: m) = true) (h' : Memory.wfFrom lo' ((k', v') :: m') = true)
    (hread : ∀ a, a < 256 → Memory.read ((k, v) :: m) a = Memory.read ((k', v') :: m') a) : k' ≤ k := by
  obtain ⟨-, hk, -, -⟩ := Memory.wfFrom_cons h
  obtain ⟨-, hk', hv', hm'⟩ := Memory.wfFrom_cons h'
  by_contra hlt
  have hfirst : Memory.wfFrom k' ((k', v') :: m') = true := by
    simp only [Memory.wfFrom, hm', le_refl, hk', decide_true, bne_iff_ne.mpr hv', Bool.and_self]
  exact Memory.read_first_ne h ((hread k hk).trans (Memory.read_below hfirst (by omega)))

theorem Memory.eq_of_read_eq {lo : Nat} {m m' : List Host.Cell} (h : Memory.wfFrom lo m = true)
    (h' : Memory.wfFrom lo m' = true) (hread : ∀ a, a < 256 → Memory.read m a = Memory.read m' a) : m = m' := by
  induction m generalizing lo m' with
  | nil =>
    cases m' with
    | nil => rfl
    | cons c' m' =>
      obtain ⟨-, hk', -, -⟩ := Memory.wfFrom_cons h'
      exact absurd (hread c'.1 hk').symm (Memory.read_first_ne h')
  | cons c m ih =>
    obtain ⟨k, v⟩ := c
    obtain ⟨-, hk, -, hm⟩ := Memory.wfFrom_cons h
    cases m' with
    | nil => exact absurd (hread k hk) (Memory.read_first_ne h)
    | cons c' m' =>
      obtain ⟨k', v'⟩ := c'
      obtain ⟨-, -, -, hm'⟩ := Memory.wfFrom_cons h'
      obtain rfl : k = k' :=
        le_antisymm (Memory.first_le h' h fun a ha => (hread a ha).symm) (Memory.first_le h h' hread)
      obtain rfl : v = v' := by
        have hfirst := hread k hk
        rwa [Memory.read_cons_self, Memory.read_cons_self] at hfirst
      rw [ih hm hm' fun a ha => ?_]
      by_cases hka : k = a
      · rw [Memory.read_below hm (by omega), Memory.read_below hm' (by omega)]
      · have hrest := hread a ha
        rwa [Memory.read_cons_ne hka, Memory.read_cons_ne hka] at hrest

/-- Settles O5: by induction on the list, both lists begin with the same cell (`Memory.eq_of_read_eq`). -/
theorem canonicalMemoryIsUnique : Obligations.CanonicalMemoryIsUnique :=
  fun _ _ => Memory.eq_of_read_eq

/-! ### Pops after pushes -/

theorem State.setReg_reg_self (s : State) (r : RegIx) : s.setReg r (s.reg r) = s := by
  simp [State.setReg, State.reg]

theorem State.setReg_setReg (s : State) (r : RegIx) (v w : Byte) : (s.setReg r v).setReg r w = s.setReg r w := by
  simp [State.setReg]

theorem add_one_add_ofNat (b : Byte) (n : Nat) : b + 1#8 + BitVec.ofNat 8 n = b + BitVec.ofNat 8 (n + 1) := by
  apply BitVec.eq_of_toNat_eq
  simp only [BitVec.toNat_add, BitVec.toNat_ofNat]
  omega

/-- The `n` bytes from the address `b` upward. -/
def bytesFrom (s : State) (b : Byte) (n : Nat) : List Byte := (List.range n).map fun k => s.load (b + BitVec.ofNat 8 k)

theorem bytesFrom_succ (s : State) (b : Byte) (n : Nat) :
    bytesFrom s b (n + 1) = s.load b :: bytesFrom s (b + 1#8) n := by
  simp [bytesFrom, List.range_succ_eq_map, add_one_add_ofNat, Function.comp_def]

/-- A run of pops that raises nothing answers the bytes from `SP` upward and moves `SP` over them (R61). -/
theorem popMany_ok (n : Nat) (s : State) (h : s.addrOverflow = .wrap ∨ (s.reg rSP).toNat + n ≤ 255) :
    popMany n s = .ok (bytesFrom s (s.reg rSP) n, s.setReg rSP (s.reg rSP + BitVec.ofNat 8 n)) := by
  induction n generalizing s with
  | zero => simp [popMany, bytesFrom, State.setReg_reg_self]
  | succ n ih =>
    have hroom : s.addrOverflow = .wrap ∨ (s.reg rSP + 1#8).toNat + n ≤ 255 := h.imp id fun h => by
      simp only [BitVec.toNat_add, BitVec.toNat_ofNat]
      omega
    have hrest := ih (popped s) (by rwa [popped_reg_sp])
    rw [popped_reg_sp, add_one_add_ofNat] at hrest
    rw [popMany, pop_ok s (h.imp id fun h => by omega)]
    dsimp only
    rw [hrest, bytesFrom_succ, popped, State.setReg_setReg]
    rfl

/-- The pushed bytes, read from the stack pointer upward, are the list from its end (R63). -/
theorem bytesFrom_pushedAll (vs : List Byte) (s : State) (hn : vs.length ≤ 256) :
    bytesFrom (pushedAll vs s) (frameAddr (s.reg rSP) vs.length) vs.length = vs.reverse := by
  apply List.ext_getElem
  · simp [bytesFrom]
  · intro k hk hk'
    have hlt : k < vs.length := by simpa using hk'
    have haddr : vs.length - k = vs.length - 1 - k + 1 := by omega
    rw [List.getElem_reverse, ← pushedAll_load vs s hn (vs.length - 1 - k) (by omega), ← haddr,
      ← frameAddr_add (s.reg rSP) hlt.le]
    simp [bytesFrom]

theorem pushAll_ok_inv {vs : List Byte} {s t : State} (h : pushAll vs s = .ok t) :
    t = pushedAll vs s ∧ (s.addrOverflow = .wrap ∨ vs.length ≤ (s.reg rSP).toNat) := by
  by_cases hroom : s.addrOverflow = .wrap ∨ vs.length ≤ (s.reg rSP).toNat
  · rw [pushAll_ok vs s hroom] at h
    cases h
    exact ⟨rfl, hroom⟩
  · obtain ⟨hset, hlow⟩ := not_or.mp hroom
    have hfault : s.addrOverflow = .fault := by cases hs : s.addrOverflow <;> simp_all
    rw [pushAll_overflow vs s hfault (by omega)] at h
    cases h

theorem pushedAll_reg_ne {r : RegIx} (hr : r ≠ rSP) (vs : List Byte) (s : State) :
    (pushedAll vs s).reg r = s.reg r := by
  obtain ⟨-, -, -, -, -, hreg⟩ := pushedAll_same vs s
  exact hreg r hr

theorem pushedAll_addrOverflow (vs : List Byte) (s : State) : (pushedAll vs s).addrOverflow = s.addrOverflow := by
  obtain ⟨-, -, -, -, ⟨-, -, -, hset, -⟩, -⟩ := pushedAll_same vs s
  exact hset

/-- `n` pushes and `n` pops of room bring the stack pointer back (R63). -/
theorem frameAddr_add_self (sp : Byte) (n : Nat) : frameAddr sp n + BitVec.ofNat 8 n = sp := by
  rw [frameAddr_add sp le_rfl, Nat.sub_self, frameAddr, BitVec.sub_zero]

/-- Settles O4: the pops read the pushed bytes from the last one on (`popMany_ok`, `bytesFrom_pushedAll`). -/
theorem stackRoundTrip : Obligations.StackRoundTrip := by
  intro vs s t hn h
  obtain ⟨rfl, hroom⟩ := pushAll_ok_inv h
  have hpops := popMany_ok vs.length (pushedAll vs s) <| by
    rw [pushedAll_addrOverflow, pushedAll_sp]
    refine hroom.imp id fun hroom => ?_
    have := (s.reg rSP).isLt
    simp only [frameAddr, BitVec.toNat_sub, BitVec.toNat_ofNat]
    omega
  rw [pushedAll_sp, bytesFrom_pushedAll vs s hn, frameAddr_add_self] at hpops
  refine ⟨_, hpops, State.reg_setReg_self _ _ _, fun r hr => ?_, State.setReg_load _ _ _⟩
  have hne : r ≠ rSP := List.ne_of_not_mem_cons hr
  rw [State.reg_setReg_ne _ _ hne, pushedAll_reg_ne hne]

/-! ### Reset and launch -/

/-- Settles O1: the registers one by one, the rest as `State.reset` lists it. -/
theorem resetState : Obligations.ResetState :=
  ⟨by decide, rfl, rfl, rfl, rfl, rfl, fun _ => rfl, rfl, rfl, rfl, rfl⟩

theorem loadImage_eq {image : List Byte} (h : image.length ≤ 256) (s : State) :
    loadImage image s = some (storeBytes image 0#8 s) :=
  if_pos h

/-- Byte `k` of an image is in cell `k`, and the other cells of an empty memory stay empty (R222, D8). -/
theorem storeBytes_load_image {image : List Byte} (h : image.length ≤ 256) {s : State} (hm : s.mem = []) (a : Byte) :
    (storeBytes image 0#8 s).load a = image.getD a.toNat 0x00#8 := by
  rw [storeBytes_load image 0#8 s h]
  simp only [BitVec.sub_zero]
  split
  · next hlt => exact (List.getD_eq_getElem _ _ hlt).symm
  · next hge =>
    rw [List.getD_eq_default _ _ (by omega), State.load, hm]
    rfl

/-- The state the launch parameters give before the image is loaded (R8, R10b). -/
def launchState (q : Vector Byte 7) (fl : Byte) (setting : AddrOverflow) (ext : ExtIrqParam) (inputs : List PollInput) :
    State :=
  { State.reset with
    regs := #v[q[0], q[1], q[2], q[3], q[4], q[5], q[6], 0xF4#8]
    fl := fl
    addrOverflow := setting
    extIrqParam := ext
    inputs := inputs }

theorem launch_eq (q : Vector Byte 7) (fl : Byte) (setting : AddrOverflow) (ext : ExtIrqParam) (inputs : List PollInput)
    (image : List Byte) : launch q fl setting ext inputs image = loadImage image (launchState q fl setting ext inputs) :=
  rfl

theorem launchState_reg (q : Vector Byte 7) (fl : Byte) (setting : AddrOverflow) (ext : ExtIrqParam)
    (inputs : List PollInput) (k : Fin 7) : (launchState q fl setting ext inputs).reg k.castSucc = q[k.val] := by
  fin_cases k <;> rfl

/-- Settles O6: the image is `storeBytes_load_image`; all else is the launch state's, since the load writes memory alone
(`storeBytes_only_mem`). -/
theorem imageLoad : Obligations.ImageLoad := by
  refine ⟨fun image h => ?_, fun image h => if_neg (by omega), fun q fl setting ext inputs image h => ?_, fun image => rfl⟩
  · exact ⟨_, loadImage_eq h _, storeBytes_load_image h rfl, wf_storeBytes image 0#8 _ State.wf_reset,
      storeBytes_only_mem image 0#8 _⟩
  · have hload := storeBytes_load_image (s := launchState q fl setting ext inputs) h rfl
    rw [launch_eq, loadImage_eq h]
    refine ⟨_, rfl, ?_⟩
    rw [storeBytes_only_mem] at hload ⊢
    exact ⟨launchState_reg q fl setting ext inputs, rfl, rfl, rfl, rfl, rfl, hload, ⟨rfl, rfl⟩, rfl, rfl, rfl, rfl⟩

end Sys2Proof.Machine

/-! Proofs about the single instructions (41_alu.md to 45_system_io.md): one rule for each shape of meaning, and each
instruction's statement from its shape. -/

namespace Sys2Proof.Machine

/-! ### Operands above 7, and ADVANCE -/

theorem withReg_raisesIndexFault {i : Instr} {a : Byte} {s : State} {f : RegIx → Host.Outcome State Fault Refusal}
    (hexec : exec i s = withReg a s f) (ha : 7 < a.toNat) : RaisesIndexFault i a s :=
  hexec.trans (withReg_of_gt ha s f)

theorem withRegs_raisesIndexFault_left {i : Instr} {a b : Byte} {s : State}
    {f : RegIx → RegIx → Host.Outcome State Fault Refusal} (hexec : exec i s = withRegs a b s f) (ha : 7 < a.toNat) :
    RaisesIndexFault i a s :=
  hexec.trans (withRegs_of_gt_left b ha s f)

theorem withRegs_raisesIndexFault_right {i : Instr} {a b : Byte} {s : State}
    {f : RegIx → RegIx → Host.Outcome State Fault Refusal} (hexec : exec i s = withRegs a b s f) (ha : a.toNat ≤ 7)
    (hb : 7 < b.toNat) : RaisesIndexFault i b s :=
  hexec.trans (withRegs_of_gt_right ha hb s f)

/-- ADVANCE past an instruction that does not load `PC` (R98). -/
theorem finish_ok {o : Op} {w : Nat} (hbit : opSetsPc o.code = false) (hw : opWidth o.code = w) {s : State}
    (h : CanAdvance w s) : finish o s = .next (s.setPc (s.pc + BitVec.ofNat 8 w)) := by
  rw [finish, hbit, hw]
  exact advance_ok w s h

/-- ADVANCE of an instruction that loads `PC` does nothing (R98). -/
theorem finish_of_setsPc {o : Op} (hbit : opSetsPc o.code = true) (s : State) : finish o s = .next s := by
  rw [finish, hbit]
  rfl

theorem fallThrough_ok {o : Op} {w : Nat} (hw : opWidth o.code = w) {s : State} (h : CanAdvance w s) :
    fallThrough o s = .next (s.setPc (s.pc + BitVec.ofNat 8 w)) := by
  rw [fallThrough, hw]
  exact advance_ok w s h

/-! ### The ALU -/

theorem writesOnlyRegs_setReg_setPc (s : State) (r : RegIx) (v pc : Byte) :
    WritesOnlyRegs [r] s ((s.setReg r v).setPc pc) :=
  writesOnlyRegs_setReg s r v

/-- Writing one register and advancing, the end of most instructions. -/
theorem finish_setReg_ok {o : Op} {w : Nat} (hbit : opSetsPc o.code = false) (hw : opWidth o.code = w) {s : State}
    (h : CanAdvance w s) (r : RegIx) (v : Byte) :
    ∃ t, finish o (s.setReg r v) = .next t ∧ t.reg r = v ∧ WritesOnlyRegs [r] s t ∧ t.pc = s.pc + BitVec.ofNat 8 w :=
  ⟨_, finish_ok hbit hw h, State.reg_setReg_self s r v, writesOnlyRegs_setReg_setPc s r v _, rfl⟩

/-- A meaning of the shape `aluTwo` is the two-register operation of R110 whose result on numbers is that of `f`. -/
theorem isTwoRegisterOp_of_aluTwo {mk : Byte → Byte → Instr} {o : Op} {f : Byte → Byte → Byte} {F : Nat → Nat → Nat}
    (hexec : ∀ a b s, exec (mk a b) s = aluTwo o f a b s) (hencode : ∀ a b, encode (mk a b) = [o.code, a, b])
    (hbit : opSetsPc o.code = false) (hw : opWidth o.code = 3) (hf : ∀ x y, (f x y).toNat = F x.toNat y.toNat) :
    IsTwoRegisterOp mk o.code F := by
  refine ⟨fun a b rest => ?_, fun a b ra rb s ha hb hadv => ?_, fun a b s => withRegs_raisesIndexFault_left (hexec a b s),
    fun a b s => withRegs_raisesIndexFault_right (hexec a b s)⟩
  · simpa only [hencode, List.cons_append, List.nil_append] using decode_encode (mk a b) rest
  · obtain ⟨t, ht, hreg, hframe, hpc⟩ := finish_setReg_ok hbit hw hadv ra (f (s.reg ra) (s.reg rb))
    refine ⟨t, ?_, by rw [hreg, hf], hframe, hpc⟩
    rw [hexec, aluTwo, withRegs_of_names ha hb, ht]

theorem isOneRegisterOp_of_aluOne {mk : Byte → Instr} {o : Op} {f : Byte → Byte} {F : Nat → Nat}
    (hexec : ∀ a s, exec (mk a) s = aluOne o f a s) (hencode : ∀ a, encode (mk a) = [o.code, a])
    (hbit : opSetsPc o.code = false) (hw : opWidth o.code = 2) (hf : ∀ x, (f x).toNat = F x.toNat) :
    IsOneRegisterOp mk o.code F := by
  refine ⟨fun a rest => ?_, fun a ra s ha hadv => ?_, fun a s => withReg_raisesIndexFault (hexec a s)⟩
  · simpa only [hencode, List.cons_append, List.nil_append] using decode_encode (mk a) rest
  · obtain ⟨t, ht, hreg, hframe, hpc⟩ := finish_setReg_ok hbit hw hadv ra (f (s.reg ra))
    refine ⟨t, ?_, by rw [hreg, hf], hframe, hpc⟩
    rw [hexec, aluOne, withReg_of_names ha, ht]

theorem toNat_sub_byte (x y : Byte) : (x - y).toNat = (x.toNat + 256 - y.toNat) % 256 := by
  have := y.isLt
  rw [BitVec.toNat_sub]
  omega

/-- Settles O7: all three have the shape `aluTwo`. -/
theorem arithmeticInstructions : Obligations.ArithmeticInstructions :=
  ⟨isTwoRegisterOp_of_aluTwo (o := .add) (fun _ _ _ => rfl) (fun _ _ => rfl) rfl rfl BitVec.toNat_add,
    isTwoRegisterOp_of_aluTwo (o := .sub) (fun _ _ _ => rfl) (fun _ _ => rfl) rfl rfl toNat_sub_byte,
    isTwoRegisterOp_of_aluTwo (o := .mul) (fun _ _ _ => rfl) (fun _ _ => rfl) rfl rfl BitVec.toNat_mul⟩

/-- Settles O8: all three have the shape `aluTwo`. -/
theorem bitwiseInstructions : Obligations.BitwiseInstructions :=
  ⟨isTwoRegisterOp_of_aluTwo (o := .and) (fun _ _ _ => rfl) (fun _ _ => rfl) rfl rfl BitVec.toNat_and,
    isTwoRegisterOp_of_aluTwo (o := .or) (fun _ _ _ => rfl) (fun _ _ => rfl) rfl rfl BitVec.toNat_or,
    isTwoRegisterOp_of_aluTwo (o := .xor) (fun _ _ _ => rfl) (fun _ _ => rfl) rfl rfl BitVec.toNat_xor⟩

theorem shiftLeft_toNat (x n : Byte) : (shiftLeft x n).toNat = (x.toNat * 2 ^ n.toNat) % 256 := by
  rw [shiftLeft, BitVec.toNat_shiftLeft, Nat.shiftLeft_eq]

/-- Settles O9: a count of 8 or more moves every bit out. -/
theorem shiftLeftInstruction : Obligations.ShiftLeftInstruction :=
  ⟨isTwoRegisterOp_of_aluTwo (o := .shl) (fun _ _ _ => rfl) (fun _ _ => rfl) rfl rfl shiftLeft_toNat,
    fun _ _ => BitVec.shiftLeft_eq_zero⟩

/-- Settles O11: both have the shape `aluOne`. -/
theorem incrementAndDecrement : Obligations.IncrementAndDecrement :=
  ⟨isOneRegisterOp_of_aluOne (o := .inc) (f := fun x => x + 1#8) (fun _ _ => rfl) (fun _ => rfl) rfl rfl
      fun x => BitVec.toNat_add x 1#8,
    isOneRegisterOp_of_aluOne (o := .dec) (f := fun x => x - 1#8) (fun _ _ => rfl) (fun _ => rfl) rfl rfl
      fun x => toNat_sub_byte x 1#8⟩

theorem execDiv_of_names {a b : Byte} {ra rb : RegIx} (ha : Names a ra) (hb : Names b rb) (s : State) :
    exec (.div a b) s = if s.reg rb = 0#8 then raise (.divideByZero s.pc) s
      else finish .div (s.setReg ra (quotient (s.reg ra) (s.reg rb))) :=
  withRegs_of_names ha hb s _

theorem quotient_toNat (x y : Byte) : (quotient x y).toNat = x.toNat / y.toNat := by
  have := Nat.div_le_self x.toNat y.toNat
  have := x.isLt
  rw [quotient, BitVec.toNat_ofNat, Nat.mod_eq_of_lt (by omega)]

/-- Settles O10: the quotient of the two bytes as numbers rounds down. -/
theorem divideInstruction : Obligations.DivideInstruction := by
  refine ⟨fun a b rest => decode_encode (.div a b) rest, fun a b ra rb s ha hb hne hadv => ?_,
    fun a b ra rb s ha hb hzero => ?_, fun a b s => withRegs_raisesIndexFault_left rfl,
    fun a b s => withRegs_raisesIndexFault_right rfl⟩
  · obtain ⟨t, ht, hreg, hframe, hpc⟩ := finish_setReg_ok (o := .div) rfl rfl hadv ra (quotient (s.reg ra) (s.reg rb))
    have hpos : 0 < (s.reg rb).toNat := Nat.pos_of_ne_zero fun h => hne (BitVec.eq_of_toNat_eq h)
    refine ⟨t, ?_, ?_, ?_, hframe, hpc⟩
    · rw [execDiv_of_names ha hb, if_neg hne, ht]
    · rw [hreg, quotient_toNat]
      exact Nat.div_mul_le_self _ _
    · rw [hreg, quotient_toNat]
      exact Nat.lt_mul_of_div_lt (Nat.lt_succ_self _) hpos
  · rw [execDiv_of_names ha hb, if_pos hzero]
    rfl

/-! ### CMP -/

/-- Bits 2, 1 and 0 of the flag of a comparison are LT, GT and EQ, and it has no other bit (R121). -/
theorem compareFlag_bits (x y : Byte) :
    (compareFlag x y).getLsbD 2 = decide (x.toNat < y.toNat) ∧
      (compareFlag x y).getLsbD 1 = decide (y.toNat < x.toNat) ∧
      (compareFlag x y).getLsbD 0 = decide (x.toNat = y.toNat) ∧ compareFlag x y &&& 0xF8#8 = 0#8 := by
  simp only [compareFlag, BitVec.lt_def]
  obtain h | h | h := Nat.lt_trichotomy x.toNat y.toNat
  · simp only [h, h.ne, h.not_gt, if_true, decide_true, decide_false]
    decide
  · simp only [h, lt_irrefl, if_false, decide_true, decide_false]
    decide
  · simp only [h, h.ne', h.not_gt, if_true, if_false, decide_true, decide_false]
    decide

theorem getLsbD_F8_low {k : Nat} (hk : k < 3) : (0xF8#8).getLsbD k = false := by
  interval_cases k <;> decide

theorem getLsbD_F8_high {k : Nat} (h3 : 3 ≤ k) (h8 : k < 8) : (0xF8#8).getLsbD k = true := by
  interval_cases k <;> decide

theorem compareFlags_low (fl x y : Byte) {k : Nat} (hk : k < 3) :
    (compareFlags fl x y).getLsbD k = (compareFlag x y).getLsbD k := by
  rw [compareFlags, BitVec.getLsbD_or, BitVec.getLsbD_and, getLsbD_F8_low hk, Bool.and_false, Bool.false_or]

/-- Bits 7 to 3 of `FL` are kept (R121, D15). -/
theorem compareFlags_high (fl x y : Byte) {k : Nat} (hk : 3 ≤ k) :
    (compareFlags fl x y).getLsbD k = fl.getLsbD k := by
  by_cases h8 : k < 8
  · obtain ⟨-, -, -, hnone⟩ := compareFlag_bits x y
    have hbit := congrArg (fun v => BitVec.getLsbD v k) hnone
    simp only [BitVec.getLsbD_and, getLsbD_F8_high hk h8, Bool.and_true, BitVec.getLsbD_zero] at hbit
    rw [compareFlags, BitVec.getLsbD_or, hbit, Bool.or_false, BitVec.getLsbD_and, getLsbD_F8_high hk h8, Bool.and_true]
  · rw [BitVec.getLsbD_of_ge _ _ (by omega), BitVec.getLsbD_of_ge _ _ (by omega)]

/-- Settles O12: the new `FL` is `compareFlags`, bit by bit. -/
theorem compareInstruction : Obligations.CompareInstruction := by
  refine ⟨fun a b rest => decode_encode (.cmp a b) rest, fun a b ra rb s ha hb hadv => ?_,
    fun a b s => withRegs_raisesIndexFault_left rfl, fun a b s => withRegs_raisesIndexFault_right rfl⟩
  have hexec : exec (.cmp a b) s = finish .cmp (s.setFl (compareFlags s.fl (s.reg ra) (s.reg rb))) :=
    withRegs_of_names ha hb s _
  obtain ⟨hlt, hgt, heq, -⟩ := compareFlag_bits (s.reg ra) (s.reg rb)
  refine ⟨_, hexec.trans (finish_ok rfl rfl hadv), ?_⟩
  exact ⟨(compareFlags_low _ _ _ (by omega)).trans hlt, (compareFlags_low _ _ _ (by omega)).trans hgt,
    (compareFlags_low _ _ _ (by omega)).trans heq, fun k hk => compareFlags_high _ _ _ hk, fun _ _ => rfl, fun _ => rfl,
    rfl, ⟨rfl, rfl, rfl, rfl, rfl, rfl, rfl, rfl⟩, rfl⟩

/-! ### LDI and the stack instructions -/

/-- Settles O14: the immediate is written as it stands. -/
theorem loadImmediateInstruction : Obligations.LoadImmediateInstruction := by
  refine ⟨fun a imm rest => decode_encode (.ldi a imm) rest, fun a imm rd s ha hadv => ?_,
    fun a imm s => withReg_raisesIndexFault rfl⟩
  obtain ⟨t, ht, hrest⟩ := finish_setReg_ok (o := .ldi) rfl rfl hadv rd imm
  exact ⟨t, (withReg_of_names ha s _).trans ht, hrest⟩

theorem execPush_of_names {a : Byte} {ra : RegIx} (ha : Names a ra) (s : State) :
    exec (.push a) s = andThen (push (s.reg ra) s) (finish .push) :=
  withReg_of_names ha s _

/-- PUSH where the push raises nothing, up to its ADVANCE. -/
theorem execPush_pushed {a : Byte} {ra : RegIx} (ha : Names a ra) {s : State}
    (hroom : s.addrOverflow = .wrap ∨ s.reg rSP ≠ 0#8) : exec (.push a) s = finish .push (pushed (s.reg ra) s) := by
  have hpush := push_ok (s.reg ra) s <| hroom.imp id fun h =>
    Nat.pos_of_ne_zero fun h0 => h (BitVec.eq_of_toNat_eq h0)
  rw [execPush_of_names ha, hpush, andThen]

theorem push_overflow (v : Byte) {s : State} (hset : s.addrOverflow = .fault) (hsp : s.reg rSP = 0#8) :
    push v s = .error (overflow 0#8 s) := by
  simp [push, dec8, hset, hsp]

/-- Settles O15: with room below `SP` the state is `pushed`, advanced; without, the push raises. -/
theorem pushInstruction : Obligations.PushInstruction := by
  refine ⟨fun a rest => decode_encode (.push a) rest, fun a ra s ha hadv hroom => ?_,
    fun a s => withReg_raisesIndexFault rfl, fun a ra s ha hset hsp => ?_⟩
  · refine ⟨_, (execPush_pushed ha hroom).trans (finish_ok rfl rfl hadv), pushed_reg_sp (s.reg ra) s,
      pushed_load_sp (s.reg ra) s, sameMemoryBut_pushed (s.reg ra) s, sameRegsBut_pushed (s.reg ra) s, rfl, rfl,
      sameControl_pushed (s.reg ra) s, rfl⟩
  · refine ⟨_, ?_, overflow_raises 0#8 s⟩
    rw [execPush_of_names ha, push_overflow _ hset hsp, andThen]

theorem execPop_of_names {a : Byte} {rd : RegIx} (ha : Names a rd) (s : State) :
    exec (.pop a) s = andThen (popRegs [rd] s) (finish .pop) :=
  withReg_of_names ha s _

/-- The state after POP's effect: the register is written last (R136). -/
theorem popRegs_one {s : State} (rd : RegIx) (h : s.addrOverflow = .wrap ∨ (s.reg rSP).toNat + 1 ≤ 255) :
    popRegs [rd] s = .ok ((popped s).setReg rd (s.load (s.reg rSP))) := by
  rw [popRegs, pop_ok s h]
  rfl

theorem execPop_popped {a : Byte} {rd : RegIx} (ha : Names a rd) {s : State}
    (hroom : s.addrOverflow = .wrap ∨ s.reg rSP ≠ 0xFF#8) :
    exec (.pop a) s = finish .pop ((popped s).setReg rd (s.load (s.reg rSP))) := by
  have hpop := popRegs_one rd <| hroom.imp id fun h => by
    have := (s.reg rSP).isLt
    have : (s.reg rSP).toNat ≠ 255 := fun h' => h (BitVec.eq_of_toNat_eq h')
    omega
  rw [execPop_of_names ha, hpop, andThen]

theorem pop_overflow {s : State} (hset : s.addrOverflow = .fault) (hsp : s.reg rSP = 0xFF#8) :
    pop s = .error (overflow 0xFF#8 s) := by
  simp [pop, inc8, hset, hsp]

theorem writesOnlyRegs_popped_setReg (s : State) (rd : RegIx) (v : Byte) :
    WritesOnlyRegs [rd, rSP] s ((popped s).setReg rd v) := by
  obtain ⟨-, hrest⟩ := writesOnlyRegs_popped s
  refine ⟨fun r hr => ?_, hrest⟩
  obtain ⟨hrd, hsp⟩ : r ≠ rd ∧ r ≠ rSP := by simpa using hr
  rw [State.reg_setReg_ne _ _ hrd, popped, State.reg_setReg_ne _ _ hsp]

/-- Settles O16: the register is written after `SP` has moved, so `SP` is `popped`'s unless it is the destination. -/
theorem popInstruction : Obligations.PopInstruction := by
  refine ⟨fun a rest => decode_encode (.pop a) rest, fun a rd s ha hadv hroom => ?_,
    fun a s => withReg_raisesIndexFault rfl, fun a rd s ha hset hsp => ?_⟩
  · refine ⟨_, (execPop_popped ha hroom).trans (finish_ok rfl rfl hadv), State.reg_setReg_self _ _ _, fun hne => ?_,
      writesOnlyRegs_popped_setReg s rd _, rfl⟩
    exact (State.reg_setReg_ne _ _ hne.symm).trans (popped_reg_sp s)
  · refine ⟨_, ?_, overflow_raises 0xFF#8 s⟩
    rw [execPop_of_names ha, popRegs, pop_overflow hset hsp, andThen]

/-- Settles O17: POP reads the cell PUSH wrote and moves `SP` back. -/
theorem pushThenPopCopies : Obligations.PushThenPopCopies := by
  intro a b ra rd s ha hb hwrap
  have hpush := (execPush_pushed ha (.inl hwrap)).trans (finish_ok (o := .push) rfl rfl (.inl hwrap))
  have hpop : ∀ t : State, t.addrOverflow = .wrap →
      exec (.pop b) t = .next (((popped t).setReg rd (t.load (t.reg rSP))).setPc (t.pc + 2#8)) :=
    fun t ht => (execPop_popped hb (.inl ht)).trans (finish_ok rfl rfl (.inl ht))
  refine ⟨_, _, hpush, hpop _ hwrap, ?_, fun r hr => ?_⟩
  · rw [State.setPc_reg, State.reg_setReg_self, State.setPc_load, State.setPc_reg, pushed_reg_sp, pushed_load_sp]
  · have hne : r ≠ rd := List.ne_of_not_mem_cons hr
    rw [State.setPc_reg, State.reg_setReg_ne _ _ hne]
    by_cases hsp : r = rSP
    · rw [hsp, popped_reg_sp, State.setPc_reg, pushed_reg_sp, BitVec.sub_add_cancel]
    · rw [popped, State.reg_setReg_ne _ _ hsp]
      exact sameRegsBut_pushed (s.reg ra) s r (by simpa using hsp)

/-! ### Jumps -/

theorem jumpWhen_taken {o : Op} (hbit : opSetsPc o.code = true) {a : Byte} {ra : RegIx} (ha : Names a ra) (s : State) :
    jumpWhen o true a s = .next (s.setPc (s.reg ra)) :=
  (withReg_of_names ha s _).trans (finish_of_setsPc hbit _)

/-- A jump that is not taken only advances (R97). -/
theorem jumpWhen_not_taken (o : Op) {a : Byte} {ra : RegIx} (ha : Names a ra) (s : State) :
    jumpWhen o false a s = fallThrough o s :=
  withReg_of_names ha s _

theorem exec_jeq (a : Byte) (s : State) : exec (.jeq a) s = jumpWhen .jeq (s.fl.getLsbD 0) a s := rfl

theorem exec_jne (a : Byte) (s : State) : exec (.jne a) s = jumpWhen .jne (!s.fl.getLsbD 0) a s := rfl

/-- Settles O18: JMP is the jump that is always taken. -/
theorem jumpInstruction : Obligations.JumpInstruction :=
  ⟨fun a rest => decode_encode (.jmp a) rest, fun _ _ s ha => jumpWhen_taken rfl ha s,
    fun _ _ => withReg_raisesIndexFault rfl⟩

/-- Settles O19: both are `jumpWhen`, with EQ and its negation. -/
theorem conditionalJumps : Obligations.ConditionalJumps := by
  refine ⟨fun a rest => decode_encode (.jeq a) rest, fun a rest => decode_encode (.jne a) rest,
    fun a ra s ha heq => ⟨?_, fun hadv => ?_⟩, fun a ra s ha heq => ⟨fun hadv => ?_, ?_⟩,
    fun a s h => ⟨withReg_raisesIndexFault rfl h, withReg_raisesIndexFault rfl h⟩⟩
  · rw [exec_jeq, heq]
    exact jumpWhen_taken rfl ha s
  · rw [exec_jne, heq]
    exact (jumpWhen_not_taken .jne ha s).trans (fallThrough_ok rfl hadv)
  · rw [exec_jeq, heq]
    exact (jumpWhen_not_taken .jeq ha s).trans (fallThrough_ok rfl hadv)
  · rw [exec_jne, heq]
    exact jumpWhen_taken rfl ha s

/-! ### The console, HLT and IRET -/

theorem exec_prn_of_names {a : Byte} {ra : RegIx} (ha : Names a ra) (s : State) :
    exec (.prn a) s = finish .prn (s.emit (.num (s.reg ra))) :=
  withReg_of_names ha s _

theorem exec_pra_of_names {a : Byte} {ra : RegIx} (ha : Names a ra) (s : State) :
    exec (.pra a) s = finish .pra (s.emit (.chr (s.reg ra))) :=
  withReg_of_names ha s _

/-- Settles O20: one event, then ADVANCE. -/
theorem consoleOutput : Obligations.ConsoleOutput :=
  ⟨fun a rest => decode_encode (.prn a) rest, fun a rest => decode_encode (.pra a) rest,
    fun _ _ s ha hadv => ⟨(exec_prn_of_names ha s).trans (finish_ok rfl rfl hadv),
      (exec_pra_of_names ha s).trans (finish_ok rfl rfl hadv)⟩,
    fun _ _ h => ⟨withReg_raisesIndexFault rfl h, withReg_raisesIndexFault rfl h⟩⟩

/-- A halted core without a fault takes no cycle (R91). -/
theorem step_of_endedWell {s : State} (h : s.EndedWell) : step s = .next s := by
  obtain ⟨hh, hf⟩ := h
  simp [step, runCycle, hh, hf]

theorem exec_hlt_halted {s t : State} (h : exec .hlt s = .next t) : t.halted = true := by
  have hadvance : finish .hlt s.setHalted = .next t := h
  obtain ⟨pc, rfl⟩ | ⟨-, -, rfl⟩ := advance_next hadvance <;> rfl

/-- Settles O21: the state HLT leaves is halted, so no step changes it. -/
theorem haltInstruction : Obligations.HaltInstruction :=
  ⟨decode_encode .hlt, fun _ hadv => finish_ok (o := .hlt) rfl rfl hadv,
    fun _ _ h hf => step_of_endedWell ⟨exec_hlt_halted h, hf⟩⟩

theorem exec_iret (s : State) : exec .iret s = andThen (returnFromInterrupt s) (finish .iret) := rfl

/-- IRET where its nine pops stay inside memory (R157): ADVANCE does nothing after it. -/
theorem exec_iret_ok {s : State} (h : s.addrOverflow = .wrap ∨ (s.reg rSP).toNat + 9 ≤ 255) :
    exec .iret s = .next (returned s) := by
  rw [exec_iret, returnFromInterrupt_ok s h]
  exact finish_of_setsPc rfl _

/-- Settles O22: the nine pops are `returned_loads` and `returned_same`. -/
theorem returnFromInterruptInstruction : Obligations.ReturnFromInterruptInstruction := by
  refine ⟨decode_encode .iret, fun s hroom => ?_, fun s hset hlow => ⟨_, ?_, overflow_raises 0xFF#8 s⟩⟩
  · obtain ⟨h6, h5, h4, h3, h2, h1, h0, hfl, hpc, hsp⟩ := returned_loads s
    obtain ⟨hie, hout, hmem, hrun⟩ := returned_same s
    exact ⟨returned s, exec_iret_ok hroom, h6, h5, h4, h3, h2, h1, h0, hfl, hpc, hsp, hie,
      State.load_eq_of_mem_eq hmem, hout, hrun⟩
  · rw [exec_iret, returnFromInterrupt_overflow s hset hlow, andThen]

end Sys2Proof.Machine

/-! Proofs about POLL, interrupts and the cycle (40_execution_cycle.md, 60_exceptions.md): what the poll's sources request, when
an entry happens and how IRET undoes it, and what a step of a running core is. -/

namespace Sys2Proof.Machine

/-! ### The poll's sources -/

theorem timerPoll_fires {now : Nat} {s : State} (h : s.timerLast + 1000000 ≤ now) :
    timerPoll now s = (s.setReg rIS (s.reg rIS ||| 1#8)).setTimerLast now :=
  (timerPoll_eq now s).trans (if_pos h)

theorem timerPoll_waits {now : Nat} {s : State} (h : now < s.timerLast + 1000000) : timerPoll now s = s :=
  (timerPoll_eq now s).trans (if_neg (Nat.not_le.mpr h))

/-- Settles O25: `timerPoll_fires` and `timerPoll_waits`, at the two sides of the bound. -/
theorem timerPollSetsLineZero : Obligations.TimerPollSetsLineZero := by
  refine ⟨fun now s h => ?_, fun now s => timerPoll_waits, fun s => ⟨⟨s.timerLast + 1000000, ?_⟩, s.timerLast, ?_⟩⟩
  · rw [timerPoll_fires h]
    exact ⟨State.reg_setReg_self _ _ _, rfl, sameRegsBut_setReg s rIS _, rfl⟩
  · rw [timerPoll_fires le_rfl]
    refine ⟨rfl, ?_⟩
    rw [State.setTimerLast_reg, State.reg_setReg_self, BitVec.getLsbD_or]
    exact Bool.or_true _
  · exact timerPoll_waits (by omega)

theorem externalPoll_reg_is (extIrq : Byte) (s : State) :
    (externalPoll extIrq s).reg rIS = s.reg rIS ||| (extIrq &&& 0xFE#8) :=
  State.reg_setReg_self s rIS _

theorem getLsbD_FE {k : Nat} (h1 : 1 ≤ k) (h8 : k < 8) : (0xFE#8).getLsbD k = true := by
  interval_cases k <;> decide

/-- Settles O26: the mask 0xFE leaves bit 0 of `IS` and passes bits 1 to 7. -/
theorem externalPollSetsLinesOneToSeven : Obligations.ExternalPollSetsLinesOneToSeven := by
  refine fun extIrq s => ⟨?_, fun k h1 h8 => ?_, sameRegsBut_setReg s rIS _, rfl⟩
  · have hbit : (0xFE#8).getLsbD 0 = false := by decide
    rw [externalPoll_reg_is, BitVec.getLsbD_or, BitVec.getLsbD_and, hbit, Bool.and_false, Bool.or_false]
  · rw [externalPoll_reg_is, BitVec.getLsbD_or, BitVec.getLsbD_and, getLsbD_FE h1 h8, Bool.and_true]

theorem nextInput_of_cons {s : State} {x : PollInput} {l : List PollInput} (h : s.inputs = x :: l) : nextInput s = x := by
  rw [nextInput, h]

theorem nextInput_extIrq_of_default {s : State} (hin : s.inputs = []) (hparam : s.extIrqParam = .zero) :
    (nextInput s).extIrq = 0x00#8 := by
  simp only [nextInput, hin, unlistedExtIrq, hparam]

theorem externalPoll_zero (s : State) : externalPoll 0x00#8 s = s := by
  rw [externalPoll, BitVec.zero_and, BitVec.or_zero, State.setReg_reg_self]

/-- The timer touches line 0 only (R183). -/
theorem timerPoll_is_high (now : Nat) (s : State) {k : Nat} (hk : 1 ≤ k) :
    ((timerPoll now s).reg rIS).getLsbD k = (s.reg rIS).getLsbD k := by
  by_cases h : s.timerLast + 1000000 ≤ now
  · have hbit : (1#8).getLsbD k = false := by
      rw [BitVec.getLsbD_one, Bool.and_eq_false_iff]
      exact .inr (decide_eq_false (by omega))
    rw [timerPoll_fires h, State.setTimerLast_reg, State.reg_setReg_self, BitVec.getLsbD_or, hbit, Bool.or_false]
  · rw [timerPoll_waits (by omega)]

/-- Settles O52: the request byte is 0, so the external poll is the identity and the timer touches line 0 only. -/
theorem externalRequestsDefaultToNone : Obligations.ExternalRequestsDefaultToNone := by
  refine ⟨fun s hin hparam => ?_, rfl, rfl⟩
  have hext := nextInput_extIrq_of_default hin hparam
  refine ⟨hext, by rw [hext, externalPoll_zero], fun k h1 _ => ?_⟩
  rw [pollSources, hext, externalPoll_zero, timerPoll_is_high _ _ h1, takeInput_reg]

theorem pollSources_reg_ne (s : State) {r : RegIx} (hr : r ≠ rIS) : (pollSources s).reg r = s.reg r := by
  obtain ⟨hreg, -⟩ := pollSources_same s
  exact hreg r hr

/-! ### Entry -/

theorem firstLine_enabled {s : State} {i : RegIx} (h : firstLine s = some i) :
    (s.reg rIM).getLsbD i.val = true ∧ (s.reg rIS).getLsbD i.val = true := by
  obtain ⟨hready, -⟩ := firstLine_some h
  exact Bool.and_eq_true_iff.mp hready

theorem getLsbD_lineBit {i j : RegIx} (h : j ≠ i) : (lineBit i).getLsbD j.val = false := by
  have hne : j.val ≠ i.val := fun e => h (Fin.ext e)
  rw [lineBit, ← BitVec.twoPow_eq, BitVec.getLsbD_twoPow, Bool.and_eq_false_iff]
  exact .inr (decide_eq_false hne.symm)

/-- Entry for line `i` clears the pending bit of no other line (R186). -/
theorem entered_pending {i j : RegIx} (h : j ≠ i) (s : State) :
    ((entered i s).reg rIS).getLsbD j.val = (s.reg rIS).getLsbD j.val := by
  rw [entered_reg_is, BitVec.getLsbD_and, BitVec.getLsbD_not, getLsbD_lineBit h, Bool.not_false, Bool.and_true,
    decide_eq_true j.isLt, Bool.and_true]

/-- Settles O24: only the entry for the line itself clears its bit, and that line was enabled. -/
theorem pendingRequestsStay : Obligations.PendingRequestsStay := by
  intro s p i hp hbefore hafter
  have hkept := pollSources_pending s i.val hbefore
  obtain rfl | ⟨j, hie, hline, rfl⟩ := poll_ok hp
  · rw [hkept] at hafter; cases hafter
  · obtain rfl : i = j := by
      by_contra hne
      rw [entered_pending hne, hkept] at hafter
      cases hafter
    obtain ⟨henabled, -⟩ := firstLine_enabled hline
    rw [pollSources_reg_ne s (by decide)] at henabled
    exact ⟨hie, henabled, entered_ie i _⟩

theorem interruptEntry_eq_entered {i : RegIx} {s t : State} (h : interruptEntry i s = .ok t) : t = entered i s := by
  obtain e | ⟨-, -, e⟩ := interruptEntry_cases i s <;> rw [e] at h <;> cases h
  rfl

/-- Settles O27: IRET reads the nine bytes of the frame back in reverse order (`frameAddr_add`). -/
theorem entryThenReturnRestores : Obligations.EntryThenReturnRestores := by
  intro i s t u _ hentry hwrap hsp hframe
  obtain rfl := interruptEntry_eq_entered hentry
  obtain ⟨-, his, -, -, -, -, -, f1, f2, f3, f4, f5, f6, f7, f8, f9, -, -⟩ := entersInterrupt_entered i s
  obtain ⟨r6, r5, r4, r3, r2, r1, r0, rflags, rpc, rsp⟩ := returned_loads u
  obtain ⟨hie, -, hmem, -⟩ := returned_same u
  have hsp' : u.reg rSP = frameAddr (s.reg rSP) 9 := hsp.trans (entered_reg_sp i s)
  have hbyte : ∀ k, k < 9 → u.load (u.reg rSP + BitVec.ofNat 8 k) = (entered i s).load (frameAddr (s.reg rSP) (9 - k)) :=
    fun k hk => by rw [hsp', frameAddr_add _ (by omega), hframe _ (by omega) (by omega)]
  refine ⟨returned u, exec_iret_ok (.inl hwrap), ?_, ?_, ?_, ?_, hie, State.load_eq_of_mem_eq hmem⟩
  · exact rpc.trans ((hbyte 8 (by omega)).trans f1)
  · exact rflags.trans ((hbyte 7 (by omega)).trans f2)
  · intro r hr
    have hne : r ≠ 6 := List.ne_of_not_mem_cons hr
    fin_cases r
    · exact r0.trans ((hbyte 6 (by omega)).trans f3)
    · exact r1.trans ((hbyte 5 (by omega)).trans f4)
    · exact r2.trans ((hbyte 4 (by omega)).trans f5)
    · exact r3.trans ((hbyte 3 (by omega)).trans f6)
    · exact r4.trans ((hbyte 2 (by omega)).trans f7)
    · exact r5.trans ((hbyte 1 (by omega)).trans f8)
    · exact absurd rfl hne
    · exact rsp.trans (by rw [hsp']; exact frameAddr_add_self (s.reg rSP) 9)
  · have h0 := hbyte 0 (by omega)
    rw [BitVec.add_zero] at h0
    exact r6.trans (h0.trans (f9.trans his))

theorem poll_of_disabled {s : State} (h : s.ie = false) : poll s = .ok (pollSources s) :=
  interruptDispatch_of_disabled h

theorem fetchBytes_pollSources (s : State) : fetchBytes (pollSources s) = fetchBytes s := rfl

/-- Settles O28: with `IE` at 0 the poll is its two sources, and of the instructions only IRET sets `IE` (`exec_ie`). -/
theorem noNestingInsideHandler : Obligations.NoNestingInsideHandler := by
  refine ⟨fun s p hie hp => ?_, fun s t hie h hset => ?_⟩
  · rw [poll_of_disabled hie] at hp
    cases hp
    exact ⟨hie, rfl, fun r hr => pollSources_reg_ne s (List.ne_of_not_mem_cons hr), fun _ => rfl⟩
  · have hoff : t.ie ≠ (pollSources s).ie := by
      rw [hset]
      exact fun e => absurd (e.trans hie) (by decide)
    obtain ⟨-, ⟨-, rfl⟩ | ⟨-, ⟨p, hp, hexec⟩ | herr⟩⟩ := step_next h
    · exact absurd rfl hoff
    · rw [poll_of_disabled hie] at hp
      cases hp
      obtain ⟨i, rest, hdec, hi⟩ | ⟨rfl, -⟩ | ⟨-, rfl⟩ := fetchExecute_next hexec
      · obtain ⟨rfl, -⟩ := exec_ie hi hoff
        exact ⟨rest, hdec⟩
      · exact absurd rfl hoff
      · exact absurd rfl hoff
    · rw [poll_of_disabled hie] at herr
      cases herr

/-- With a bit set in `IM & IS` some line is ready (R185). -/
theorem exists_firstLine {s : State} (h : s.reg rIM &&& s.reg rIS ≠ 0#8) : ∃ i, firstLine s = some i := by
  cases hline : firstLine s with
  | some i => exact ⟨i, rfl⟩
  | none =>
    refine absurd (BitVec.eq_of_getLsbD_eq fun k hk => ?_) h
    rw [BitVec.getLsbD_zero, ← lineReady_eq s ⟨k, hk⟩]
    exact firstLine_none hline ⟨k, hk⟩

theorem poll_enters {s : State} {i : RegIx} (hie : s.ie = true) (hwrap : s.addrOverflow = .wrap)
    (hline : firstLine (pollSources s) = some i) : poll s = .ok (entered i (pollSources s)) := by
  obtain ⟨hno | hno, -⟩ | ⟨j, -, hj, hdispatch⟩ := interruptDispatch_cases (pollSources s)
  · exact absurd (hie.symm.trans hno) (by decide)
  · rw [hline] at hno; cases hno
  · obtain rfl : i = j := Option.some.inj (hline.symm.trans hj)
    exact hdispatch.trans (interruptEntry_ok i _ (.inl hwrap))

/-- The poll's sources keep every masked pending bit, so what is masked non-zero stays so. -/
theorem pollSources_masked {s : State} (h : s.reg rIM &&& s.reg rIS ≠ 0#8) :
    (pollSources s).reg rIM &&& (pollSources s).reg rIS ≠ 0#8 := by
  intro hzero
  refine h (BitVec.eq_of_getLsbD_eq fun k _ => ?_)
  have hbit := congrArg (fun v => BitVec.getLsbD v k) hzero
  simp only [BitVec.getLsbD_and, BitVec.getLsbD_zero, pollSources_reg_ne s (show rIM ≠ rIS by decide)] at hbit ⊢
  rw [Bool.and_eq_false_iff] at hbit ⊢
  exact hbit.imp id fun hoff => by
    by_contra hon
    rw [pollSources_pending s k (by simpa using hon)] at hoff
    cases hoff

/-- Settles O29: the poll after LDI R6 finds an enabled line (`exists_firstLine`) and its entry pushes the `PC` after the
LDI first. -/
theorem softwareRaisesInterrupt : Obligations.SoftwareRaisesInterrupt := by
  intro a m s t ha hwrap hie hmask hexec
  have hldi : exec (.ldi a m) s = .next ((s.setReg rIS m).setPc (s.pc + 3#8)) :=
    (withReg_of_names ha s _).trans (finish_ok (o := .ldi) rfl rfl (.inl hwrap))
  rw [hldi] at hexec
  cases hexec
  obtain ⟨i, hline⟩ := exists_firstLine <| pollSources_masked (s := (s.setReg rIS m).setPc (s.pc + 3#8)) <| by
    rwa [State.setPc_reg, State.setPc_reg, State.reg_setReg_self, State.reg_setReg_ne _ _ (by decide)]
  obtain ⟨henabled, -⟩ := firstLine_enabled hline
  rw [pollSources_reg_ne _ (by decide), State.setPc_reg, State.reg_setReg_ne _ _ (by decide)] at henabled
  refine ⟨_, i, poll_enters hie hwrap hline, entered_ie i _, henabled, entered_pc i _, ?_⟩
  have hframe := entered_load_frame i (pollSources ((s.setReg rIS m).setPc (s.pc + 3#8))) 0 _ rfl
  rwa [pollSources_reg_ne _ (by decide)] at hframe

/-! ### The step of a running core -/

theorem step_of_poll {s p : State} (hrun : s.Running) (hp : poll s = .ok p) : step s = fetchExecute p := by
  rw [step_running hrun, hp, andThen]

theorem step_of_poll_error {s t : State} (hrun : s.Running) (hp : poll s = .error t) : step s = .next t := by
  rw [step_running hrun, hp, andThen]

/-- Settles O51: with nine cells below `SP` entry is as under `wrap`, with fewer it raises when `IE` is already 0. -/
theorem interruptEntryUnderFaultSetting : Obligations.InterruptEntryUnderFaultSetting := by
  refine ⟨fun s i hsel _ hroom => ?_, fun s i hsel hset hlow => ?_, fun s t => step_of_poll_error⟩
  · exact ⟨entered i s, (interruptDispatch_of_selects hsel).trans (interruptEntry_ok i s (.inr hroom)),
      entersInterrupt_entered i s⟩
  · exact ⟨_, (interruptDispatch_of_selects hsel).trans (interruptEntry_overflow i s hset hlow),
      overflow_raises 0#8 (s.setIe false)⟩

theorem fetchExecute_of_decode {p : State} {i : Instr} {rest : List Byte} (hdec : decode (fetchBytes p) = .ok (i, rest))
    (hroom : p.addrOverflow = .wrap ∨ p.pc.toNat + i.operands.length ≤ 255) : fetchExecute p = exec i p := by
  have hfetch : fetchOverflows i p = false := by
    rw [fetchOverflows, Bool.and_eq_false_iff]
    exact hroom.imp (fun h => by rw [h]; rfl) fun h => decide_eq_false (by omega)
  simp [fetchExecute, hdec, hfetch]

/-- A used operand byte past 0xFF under the `fault` setting (R56, R170). -/
theorem fetchExecute_overflow {p : State} {i : Instr} {rest : List Byte} (hdec : decode (fetchBytes p) = .ok (i, rest))
    (hset : p.addrOverflow = .fault) (hout : 255 < p.pc.toNat + i.operands.length) :
    fetchExecute p = .next (overflow p.pc p) := by
  have hfetch : fetchOverflows i p = true := by
    rw [fetchOverflows, hset, decide_eq_true hout]
    rfl
  simp [fetchExecute, hdec, hfetch]

theorem fetchExecute_invalid {p : State} {e : DecodeError} (hdec : decode (fetchBytes p) = .error e) :
    fetchExecute p = .next (p.setFault (.invalidOpcode (p.load p.pc) p.pc)) := by
  rw [fetchExecute, hdec]
  rfl

/-- Settles O30: POLL, then what the fetched bytes decode to. -/
theorem stepRunsDecodedInstruction : Obligations.StepRunsDecodedInstruction :=
  fun _ _ _ _ hrun hp hdec hroom => (step_of_poll hrun hp).trans (fetchExecute_of_decode hdec hroom)

/-- Settles O31: a byte outside the mapping decodes to nothing, whatever follows. -/
theorem illegalOpcodeFaults : Obligations.IllegalOpcodeFaults :=
  fun _ _ hrun hp hbyte => (step_of_poll hrun hp).trans
    (fetchExecute_invalid (decode_of_lookupOp_none ((lookupOp_eq_none_iff _).mpr hbyte) _))

theorem step_of_fault {s : State} {f : FaultRecord} (h : s.fault = some f) : step s = .fault (.faulted f) := by
  simp [step, runCycle, h]

/-- Settles O32: the check at the top of the cycle. -/
theorem terminalCoreTakesNoCycle : Obligations.TerminalCoreTakesNoCycle :=
  ⟨fun _ => step_of_endedWell, fun _ _ => step_of_fault⟩

theorem fetchExecute_answers (p : State) : ∃ t, fetchExecute p = .next t := by
  obtain ⟨i, -, -, -, he⟩ | ⟨he, -⟩ | ⟨-, he⟩ := fetchExecute_cases p
  · rw [he]; exact exec_answers i p
  · exact ⟨_, he⟩
  · exact ⟨_, he⟩

theorem step_answers {s : State} (hrun : s.Running) : ∃ t, step s = .next t := by
  obtain ⟨p, hp⟩ | ⟨-, -, hp⟩ := poll_cases s
  · rw [step_of_poll hrun hp]; exact fetchExecute_answers p
  · exact ⟨_, step_of_poll_error hrun hp⟩

theorem no_fault_of_wrap {i : Instr} {s t : State} (hwrap : s.addrOverflow = .wrap) (hwf : i.wellFormed = true)
    (hdiv : i.op ≠ .div) (h : exec i s = .next t) : t.fault = s.fault := by
  obtain ⟨f, ⟨k, hk, hgt, -⟩ | ⟨hop, -⟩, -⟩ | ⟨e, pc, he, rfl⟩ | ⟨hset, -⟩ := exec_next h
  · have := regOperands_of_wellFormed hwf hk
    omega
  · exact absurd hop hdiv
  · exact he.same.1
  · exact absurd (hwrap.symm.trans hset) (by decide)

/-- Settles O33: POLL and FETCH to ADVANCE always answer a next state. -/
theorem runningCoreAlwaysSteps : Obligations.RunningCoreAlwaysSteps :=
  ⟨fun _ => step_answers, exec_answers, fun _ _ _ => no_fault_of_wrap⟩

/-- Settles O34: an instruction answers a next state, and a core that takes no cycle answers one or its fault. -/
theorem nothingIsRefused : Obligations.NothingIsRefused := by
  refine ⟨fun i s r h => ?_, fun s r h => ?_⟩
  · obtain ⟨t, ht⟩ := exec_answers i s
    rw [ht] at h; cases h
  · cases hf : s.fault with
    | some f => rw [step_of_fault hf] at h; cases h
    | none =>
      cases hh : s.halted with
      | true => rw [step_of_endedWell ⟨hh, hf⟩] at h; cases h
      | false =>
        obtain ⟨t, ht⟩ := step_answers ⟨hh, hf⟩
        rw [ht] at h; cases h

theorem fetchExecute_environment {p t : State} (h : fetchExecute p = .next t) :
    t.inputs = p.inputs ∧ t.polls = p.polls ∧ t.addrOverflow = p.addrOverflow ∧ t.extIrqParam = p.extIrqParam := by
  obtain ⟨i, rest, -, hexec⟩ | ⟨rfl, -⟩ | ⟨-, rfl⟩ := fetchExecute_next h
  · obtain ⟨-, hset, hext, hin, hpolls⟩ := exec_same hexec
    exact ⟨hin, hpolls, hset, hext⟩
  · exact ⟨rfl, rfl, rfl, rfl⟩
  · exact ⟨rfl, rfl, rfl, rfl⟩

/-- Settles O35: POLL takes one input (`poll_same`), the rest of the cycle none. -/
theorem environmentSampledOncePerCycle : Obligations.EnvironmentSampledOncePerCycle := by
  refine ⟨fun s t hrun h => ?_, fun s x l => nextInput_of_cons⟩
  obtain ⟨-, ⟨hh, -⟩ | ⟨-, ⟨p, hp, hexec⟩ | herr⟩⟩ := step_next h
  · rw [hrun.1] at hh; cases hh
  · obtain ⟨-, -, -, -, hset, hext, hin, hpolls⟩ := poll_same hp
    obtain ⟨hin', hpolls', hset', hext'⟩ := fetchExecute_environment hexec
    exact ⟨hin'.trans hin, hpolls'.trans hpolls, hset'.trans hset, hext'.trans hext⟩
  · obtain ⟨-, -, rfl⟩ := poll_error herr
    exact ⟨rfl, rfl, rfl, rfl⟩

/-! ### The placed word -/

theorem placeWord_running (s : State) (nbits w : Nat) : (placeWord s nbits w).Running := ⟨rfl, rfl⟩

/-- Placing a word changes nothing the poll's sources read (log entry 6). -/
theorem firstLine_placeWord (s : State) (nbits w : Nat) :
    firstLine (pollSources (placeWord s nbits w)) = firstLine (pollSources s) := by
  rw [placeWord, storeBytes_only_mem]
  rfl

/-- The poll of a state with a word placed enters no interrupt (log entry 6). -/
theorem poll_placeWord (s : State) (nbits w : Nat) :
    poll (placeWord s nbits w) = .ok (pollSources (placeWord s nbits w)) := by
  obtain ⟨-, hok⟩ | ⟨i, hie, hline, -⟩ := interruptDispatch_cases (pollSources (placeWord s nbits w))
  · exact hok
  · have hie' : (s.ie && (firstLine (pollSources s)).isNone) = true := hie
    rw [← firstLine_placeWord s nbits w, hline, Option.isNone_some, Bool.and_false] at hie'
    cases hie'

/-- FETCH reads the three bytes of the placed word (R93). -/
theorem fetchBytes_placeWord (s : State) (nbits w : Nat) : fetchBytes (placeWord s nbits w) = tableBytes nbits w := by
  have hload : ∀ b, (placeWord s nbits w).load b = (storeBytes (tableBytes nbits w) s.pc s).load b := fun _ => rfl
  have hpc : (placeWord s nbits w).pc = s.pc := by
    rw [placeWord, storeBytes_only_mem]
  have hbytes := storeBytes_load (tableBytes nbits w) s.pc s (by simp [tableBytes])
  have hcancel : ∀ k : Byte, s.pc + k - s.pc = k := fun k => by rw [BitVec.add_comm, BitVec.add_sub_cancel]
  rw [fetchBytes, hpc, hload, hload, hload, hbytes, hbytes, hbytes]
  simp [tableBytes, hcancel]

theorem decode_of_decodeTableWord {nbits w : Nat} {i : Instr} (h : decodeTableWord nbits w = some i) :
    ∃ rest, decode (tableBytes nbits w) = .ok (i, rest) := by
  unfold decodeTableWord at h
  split at h
  · next i' rest hdec => cases h; exact ⟨rest, hdec⟩
  · cases h

/-- Settles O50: POLL leaves what its sources leave and FETCH reads the placed bytes. -/
theorem placedWordRunsNext : Obligations.PlacedWordRunsNext := by
  intro s nbits w i hword hroom
  obtain ⟨rest, hdec⟩ := decode_of_decodeTableWord hword
  rw [← fetchBytes_placeWord s nbits w, ← fetchBytes_pollSources] at hdec
  refine (step_of_poll (placeWord_running s nbits w) (poll_placeWord s nbits w)).trans (fetchExecute_of_decode hdec ?_)
  rwa [placeWord, storeBytes_only_mem]

end Sys2Proof.Machine

/-! Proofs about ADVANCE and faults over all instructions (20_memory.md R56, 40_execution_cycle.md R99, 60_exceptions.md R170 to
R172): which instructions reach an ADVANCE that moves `PC`, what it does under each setting, and which faults are precise. -/

namespace Sys2Proof.Machine

/-! ### The instructions that reach an ADVANCE moving `PC` -/

/-- The outcome is an index or division fault, a raise in PUSH or POP, or an effect followed by an ADVANCE that moves `PC`. -/
def ReachesAdvance (i : Instr) (s : State) (o : Host.Outcome State Fault Refusal) : Prop :=
  (∃ f, RaisedBy i s f ∧ o = .next (s.setFault f)) ∨ (i.op ∈ [Op.push, .pop] ∧ ∃ a, o = .next (overflow a s)) ∨
    ∃ e, Effect s i e ∧ o = fallThrough i.op e

/-- ADVANCE of an operation without the sets-PC bit is the one that moves `PC` (R98). -/
theorem finish_eq_fallThrough {o : Op} (hbit : opSetsPc o.code = false) (s : State) : finish o s = fallThrough o s := by
  rw [finish, hbit, fallThrough]

theorem reaches_finish {i : Instr} {o : Op} {s e : State} (he : Effect s i e) (ho : i.op = o)
    (hbit : opSetsPc o.code = false) : ReachesAdvance i s (finish o e) := by
  rw [finish_eq_fallThrough hbit, ← ho]
  exact .inr (.inr ⟨e, he, rfl⟩)

theorem reaches_withReg {i : Instr} {s : State} {a : Byte} {f : RegIx → Host.Outcome State Fault Refusal}
    (hf : ∀ r, ReachesAdvance i s (f r))
    (ha : a ∈ i.regOperands := by simp [Instr.regOperands, Instr.op, Instr.operands]) :
    ReachesAdvance i s (withReg a s f) := by
  obtain ⟨r, -, e⟩ | ⟨h, e⟩ := withReg_cases a s f
  · rw [e]; exact hf r
  · exact .inl ⟨_, .inl ⟨a, ha, h, rfl⟩, e⟩

theorem reaches_withRegs {i : Instr} {s : State} {a b : Byte} {f : RegIx → RegIx → Host.Outcome State Fault Refusal}
    (hf : ∀ ra rb, ReachesAdvance i s (f ra rb))
    (ha : a ∈ i.regOperands := by simp [Instr.regOperands, Instr.op, Instr.operands])
    (hb : b ∈ i.regOperands := by simp [Instr.regOperands, Instr.op, Instr.operands]) :
    ReachesAdvance i s (withRegs a b s f) :=
  reaches_withReg (fun ra => reaches_withReg (fun rb => hf ra rb) hb) ha

theorem reaches_write {i : Instr} {o : Op} {s : State} (r : RegIx) (v : Byte) (ho : i.op = o)
    (hbit : opSetsPc o.code = false)
    (hop : i.op ∈ [Op.inc, .dec, .ldi, .add, .sub, .mul, .div, .and, .or, .xor, .shl] := by simp [Instr.op]) :
    ReachesAdvance i s (finish o (s.setReg r v)) :=
  reaches_finish (.write i r v hop) ho hbit

/-- A jump's condition is clear, so it falls through (R97). -/
theorem reaches_jumpWhen {i : Instr} {o : Op} {s : State} {a : Byte} (ho : i.op = o)
    (ha : a ∈ i.regOperands := by simp [Instr.regOperands, Instr.op, Instr.operands])
    (hop : i.op ∈ [Op.jmp, .jeq, .jne] := by simp [Instr.op]) : ReachesAdvance i s (jumpWhen o false a s) :=
  reaches_withReg (fun _ => .inr (.inr ⟨s, .jump i hop, by rw [ho]; rfl⟩)) ha

theorem reaches_execDiv (a b : Byte) (s : State) : ReachesAdvance (.div a b) s (execDiv a b s) := by
  refine reaches_withRegs fun ra rb => ?_
  split
  · exact .inl ⟨_, .inr ⟨rfl, rfl⟩, rfl⟩
  · exact reaches_write ra _ rfl rfl

theorem reaches_execPush (a : Byte) (s : State) : ReachesAdvance (.push a) s (execPush a s) := by
  refine reaches_withReg fun ra => ?_
  obtain e | ⟨-, -, e⟩ := push_cases (s.reg ra) s
  · rw [e]; exact reaches_finish (.push a _) rfl rfl
  · rw [e]; exact .inr (.inl ⟨by simp [Instr.op], _, rfl⟩)

theorem reaches_execPop (a : Byte) (s : State) : ReachesAdvance (.pop a) s (execPop a s) := by
  refine reaches_withReg fun rd => ?_
  obtain e | ⟨-, -, e⟩ := pop_cases s
  · simp only [popRegs, e, andThen]; exact reaches_finish (.pop a rd) rfl rfl
  · simp only [popRegs, e, andThen]; exact .inr (.inl ⟨by simp [Instr.op], _, rfl⟩)

/-- Every instruction but JMP, IRET and a taken JEQ or JNE reaches an ADVANCE that moves `PC`, unless it raises before. -/
theorem exec_reachesAdvance {i : Instr} {s : State} (hjmp : i.op ≠ .jmp) (hiret : i.op ≠ .iret)
    (hjeq : ¬(i.op = .jeq ∧ s.fl.getLsbD 0 = true)) (hjne : ¬(i.op = .jne ∧ s.fl.getLsbD 0 = false)) :
    ReachesAdvance i s (exec i s) := by
  cases i with
  | jmp a => exact absurd rfl hjmp
  | iret => exact absurd rfl hiret
  | jeq a =>
    have hclear : s.fl.getLsbD 0 = false := Bool.eq_false_iff.mpr fun h => hjeq ⟨rfl, h⟩
    rw [exec_jeq, hclear]
    exact reaches_jumpWhen rfl
  | jne a =>
    have hset : s.fl.getLsbD 0 = true := Bool.of_not_eq_false fun h => hjne ⟨rfl, h⟩
    rw [exec_jne, hset]
    exact reaches_jumpWhen rfl
  | hlt => exact reaches_finish (s := s) .halt rfl rfl
  | push a => exact reaches_execPush a s
  | pop a => exact reaches_execPop a s
  | div a b => exact reaches_execDiv a b s
  | prn a | pra a => exact reaches_withReg fun _ => reaches_finish (.emit _ _ (by simp [Instr.op])) rfl rfl
  | inc a | dec a | ldi a imm => exact reaches_withReg fun r => reaches_write r _ rfl rfl
  | cmp a b => exact reaches_withRegs fun _ _ => reaches_finish (.flags a b _) rfl rfl
  | add a b | sub a b | mul a b | and a b | or a b | xor a b | shl a b =>
    exact reaches_withRegs fun r _ => reaches_write r _ rfl rfl

/-- Until ADVANCE an instruction other than IRET leaves `PC` at its own address (R25). -/
theorem Effect.pc {s e : State} {i : Instr} (h : Effect s i e) (hiret : i.op ≠ .iret) : e.pc = s.pc := by
  cases h with
  | ret => exact absurd rfl hiret
  | write | flags | push | pop | jump | emit | halt => rfl

/-- Settles O36: the ADVANCE that is reached raises nothing, so it adds the decoded width. -/
theorem advanceMovesByDecodedWidth : Obligations.AdvanceMovesByDecodedWidth := by
  intro i s t h hfault hjmp hiret hjeq hjne
  obtain ⟨f, -, ho⟩ | ⟨-, a, ho⟩ | ⟨e, he, ho⟩ := exec_reachesAdvance hjmp hiret hjeq hjne <;> rw [h] at ho
  · cases ho; cases hfault
  · cases ho; cases hfault
  · obtain ⟨hbit, -⟩ | ⟨-, hadv⟩ | ⟨-, -, -, hadv⟩ := advance_cases (opWidth i.op.code) false e
    · cases hbit
    · rw [fallThrough, hadv] at ho
      cases ho
      rw [State.setPc_pc, he.pc hiret, opWidth_eq]
    · rw [fallThrough, hadv] at ho
      cases ho
      cases hfault

/-! ### Precise faults -/

/-- An instruction that leaves a fault other than code 4 raised it and did nothing else (R171). -/
theorem exec_precise {i : Instr} {s t : State} {f : FaultRecord} (hs : s.fault = none) (h : exec i s = .next t)
    (hf : t.fault = some f) (hcode : f.code ≠ 4) : RaisedBy i s f ∧ t = s.setFault f := by
  obtain ⟨g, hraised, rfl⟩ | ⟨e, p, he, rfl⟩ | ⟨-, e, a, -, -, rfl⟩ := exec_next h
  · cases hf; exact ⟨hraised, rfl⟩
  · rw [State.setPc_fault, he.same.1, hs] at hf; cases hf
  · exact absurd (overflowed_code hf (overflow_overflowed a e)) hcode

/-- Settles O37: the fault is the instruction's (`exec_precise`) or that of an opcode byte outside the mapping. -/
theorem faultsArePrecise : Obligations.FaultsArePrecise := by
  refine ⟨fun i s t f hs h hf hcode => ?_, fun s p t f hrun hp h hf hcode => ?_⟩
  · obtain ⟨hraised, rfl⟩ := exec_precise hs h hf hcode
    exact ⟨rfl, hraised.symm⟩
  · rw [step_of_poll hrun hp] at h
    obtain ⟨i, rest, -, hexec⟩ | ⟨rfl, herr⟩ | ⟨-, rfl⟩ := fetchExecute_next h
    · obtain ⟨hraised, rfl⟩ := exec_precise (poll_running hp hrun).2 hexec hf hcode
      refine ⟨rfl, hraised.pc_eq, fun hone => ?_⟩
      obtain htwo | hthree := hraised.code_eq <;> omega
    · cases hf
      exact ⟨rfl, rfl, fun _ => ⟨rfl, herr⟩⟩
    · exact absurd (overflowed_code hf (overflow_overflowed p.pc p)) hcode

/-! ### The `fault` setting -/

theorem inc8_overflow {s : State} {a : Byte} {k : Nat} (hset : s.addrOverflow = .fault) (h : 255 < a.toNat + k) :
    inc8 s a k = .error (overflow a s) :=
  if_pos ⟨hset, h⟩

theorem dec8_overflow {s : State} {a : Byte} {k : Nat} (hset : s.addrOverflow = .fault) (h : a.toNat < k) :
    dec8 s a k = .error (overflow a s) :=
  if_pos ⟨hset, h⟩

theorem toNat_add_ofNat {a : Byte} {k : Nat} (h : a.toNat + k ≤ 255) : (a + BitVec.ofNat 8 k).toNat = a.toNat + k := by
  simp only [BitVec.toNat_add, BitVec.toNat_ofNat]
  omega

theorem toNat_sub_ofNat {a : Byte} {k : Nat} (h : k ≤ a.toNat) : (a - BitVec.ofNat 8 k).toNat = a.toNat - k := by
  have := a.isLt
  simp only [BitVec.toNat_sub, BitVec.toNat_ofNat]
  omega

/-- The outcome is that of an ADVANCE by `w` from `s` under the `fault` setting: it raises exactly where it leaves memory. -/
def RaisesPastEnd (w : Nat) (s : State) (o : Host.Outcome State Fault Refusal) : Prop :=
  (255 < s.pc.toNat + w → ∃ t, o = .next t ∧ RaisesAddressOverflow s.pc s t) ∧
    (s.pc.toNat + w ≤ 255 → ∃ t, o = .next t ∧ t.fault = s.fault)

theorem fallThrough_under_fault {o : Op} {w : Nat} (hw : opWidth o.code = w) {s : State} (hset : s.addrOverflow = .fault) :
    RaisesPastEnd w s (fallThrough o s) := by
  refine ⟨fun h => ⟨_, ?_, overflow_raises s.pc s⟩, fun h => ⟨_, fallThrough_ok hw (.inr h), rfl⟩⟩
  rw [fallThrough, hw, advance_overflow w s hset h]

theorem finish_under_fault {o : Op} {w : Nat} (hbit : opSetsPc o.code = false) (hw : opWidth o.code = w) {s : State}
    (hset : s.addrOverflow = .fault) : RaisesPastEnd w s (finish o s) := by
  rw [finish_eq_fallThrough hbit]
  exact fallThrough_under_fault hw hset

theorem div_under_fault {a b : Byte} {ra rb : RegIx} {s : State} (ha : Names a ra) (hb : Names b rb)
    (hset : s.addrOverflow = .fault) (hne : s.reg rb ≠ 0#8) : RaisesPastEnd 3 s (exec (.div a b) s) := by
  rw [execDiv_of_names ha hb, if_neg hne]
  exact finish_under_fault (o := .div) (s := s.setReg ra (quotient (s.reg ra) (s.reg rb))) rfl rfl hset

theorem push_under_fault {a : Byte} {ra : RegIx} {s : State} (ha : Names a ra) (hset : s.addrOverflow = .fault)
    (hne : s.reg rSP ≠ 0#8) : RaisesPastEnd 2 s (exec (.push a) s) := by
  rw [execPush_pushed ha (.inr hne)]
  exact finish_under_fault (o := .push) (s := pushed (s.reg ra) s) rfl rfl hset

theorem pop_under_fault {a : Byte} {rd : RegIx} {s : State} (ha : Names a rd) (hset : s.addrOverflow = .fault)
    (hne : s.reg rSP ≠ 0xFF#8) : RaisesPastEnd 2 s (exec (.pop a) s) := by
  rw [execPop_popped ha (.inr hne)]
  exact finish_under_fault (o := .pop) (s := (popped s).setReg rd (s.load (s.reg rSP))) rfl rfl hset

/-- The effects that change neither `IE`, `HALTED`, `OUT` nor `PC` do not show in what a raise after them leaves (R172). -/
theorem Effect.raises {s e t : State} {i : Instr} {a : Byte} (he : Effect s i e)
    (hop : i.op ∉ [Op.hlt, .prn, .pra, .iret]) (h : RaisesAddressOverflow a e t) : RaisesAddressOverflow a s t := by
  cases he with
  | write | flags | push | pop | jump => exact h
  | emit _ _ hio =>
    simp only [List.mem_cons, List.not_mem_nil, or_false, not_or] at hop hio
    obtain ⟨-, hprn, hpra, -⟩ := hop
    exact absurd hio (not_or.mpr ⟨hprn, hpra⟩)
  | halt | ret => exact absurd (by simp [Instr.op]) hop

/-- A well-formed instruction that neither loads `PC` nor can raise before its ADVANCE reaches it. -/
theorem exec_eq_fallThrough {i : Instr} {s : State} (hwf : i.wellFormed = true)
    (hop : i.op ∉ [Op.jmp, .iret, .jeq, .jne, .div, .push, .pop]) : ∃ e, Effect s i e ∧ exec i s = fallThrough i.op e := by
  simp only [List.mem_cons, List.not_mem_nil, or_false, not_or] at hop
  obtain ⟨hjmp, hiret, hjeq, hjne, hdiv, hpush, hpop⟩ := hop
  obtain ⟨f, ⟨k, hk, hgt, -⟩ | ⟨hd, -⟩, -⟩ | ⟨hstack, -⟩ | hreach :=
    exec_reachesAdvance (s := s) hjmp hiret (fun h => hjeq h.1) (fun h => hjne h.1)
  · have := regOperands_of_wellFormed hwf hk
    omega
  · exact absurd hd hdiv
  · simp only [List.mem_cons, List.not_mem_nil, or_false] at hstack
    exact absurd hstack (not_or.mpr ⟨hpush, hpop⟩)
  · exact hreach

/-- ADVANCE of every such instruction under the `fault` setting (R56, R172). -/
theorem exec_under_fault {i : Instr} {s : State} (hset : s.addrOverflow = .fault) (hwf : i.wellFormed = true)
    (hop : i.op ∉ [Op.jmp, .iret, .jeq, .jne, .div, .push, .pop]) :
    (s.pc.toNat + i.operands.length + 1 ≤ 255 → ∃ t, exec i s = .next t ∧ t.fault = s.fault) ∧
      (255 < s.pc.toNat + i.operands.length + 1 → i.op ∉ [Op.hlt, .prn, .pra] →
        ∃ t, exec i s = .next t ∧ RaisesAddressOverflow s.pc s t) := by
  obtain ⟨e, he, hexec⟩ := exec_eq_fallThrough (s := s) hwf hop
  obtain ⟨hfault, -, hkept, -⟩ := he.same
  have hiret : i.op ≠ .iret := fun h => hop (by simp [h])
  have hpc := he.pc hiret
  obtain ⟨-, hwidth, -⟩ := encoding_statement i
  obtain ⟨hraise, hmove⟩ := fallThrough_under_fault hwidth (hkept.trans hset)
  rw [hexec]
  refine ⟨fun h => ?_, fun h hio => ?_⟩
  · obtain ⟨t, ht, htf⟩ := hmove (by rw [hpc]; omega)
    exact ⟨t, ht, htf.trans hfault⟩
  · obtain ⟨t, ht, hr⟩ := hraise (by rw [hpc]; omega)
    exact ⟨t, ht, he.raises (by simp_all) (hpc ▸ hr)⟩

/-- A conditional jump that is not taken falls through. -/
theorem not_taken_under_fault {i : Instr} {a : Byte} {ra : RegIx} {s : State} (ha : Names a ra)
    (hset : s.addrOverflow = .fault)
    (h : (i = .jeq a ∧ s.fl.getLsbD 0 = false) ∨ (i = .jne a ∧ s.fl.getLsbD 0 = true)) : RaisesPastEnd 2 s (exec i s) := by
  obtain ⟨rfl, hclear⟩ | ⟨rfl, heq⟩ := h
  · rw [exec_jeq, hclear, jumpWhen_not_taken .jeq ha s]
    exact fallThrough_under_fault (o := .jeq) rfl hset
  · rw [exec_jne, heq, Bool.not_true, jumpWhen_not_taken .jne ha s]
    exact fallThrough_under_fault (o := .jne) rfl hset

/-- Settles O38: `inc8`, `dec8`, each ADVANCE (`finish_under_fault`, `exec_under_fault`, `fallThrough_under_fault`) and the fetch
(`fetchExecute_overflow`). -/
theorem addressOverflowUnderFaultSetting : Obligations.AddressOverflowUnderFaultSetting := by
  refine ⟨fun s a k hset => ⟨?_, ?_, ?_, ?_⟩, fun i s => exec_under_fault, fun a ra s ha hset => ⟨?_, ?_, ?_⟩,
    fun a b ra rb s ha hb hset => ?_, fun i a ra s ha hset => not_taken_under_fault ha hset,
    fun s p i rest hrun hp hdec hset => ⟨fun hout => ?_, fun hroom => ?_⟩⟩
  · exact fun h => ⟨_, inc8_overflow hset h, overflow_raises a s⟩
  · exact fun h => ⟨_, inc8_ok s a k (.inr h), toNat_add_ofNat h⟩
  · exact fun h => ⟨_, dec8_overflow hset h, overflow_raises a s⟩
  · exact fun h => ⟨_, dec8_ok s a k (.inr h), toNat_sub_ofNat h⟩
  · exact (finish_under_fault (o := .hlt) (s := s.setHalted) rfl rfl hset).1
  · rw [exec_prn_of_names ha]
    exact (finish_under_fault (o := .prn) (s := s.emit (.num (s.reg ra))) rfl rfl hset).1
  · rw [exec_pra_of_names ha]
    exact (finish_under_fault (o := .pra) (s := s.emit (.chr (s.reg ra))) rfl rfl hset).1
  · have hdiv := div_under_fault ha hb hset
    have hpush := push_under_fault ha hset
    have hpop := pop_under_fault ha hset
    exact ⟨fun hne => (hdiv hne).1, fun hne => (hdiv hne).2, fun hne => (hpush hne).1, fun hne => (hpush hne).2,
      fun hne => (hpop hne).1, fun hne => (hpop hne).2⟩
  · exact ⟨_, (step_of_poll hrun hp).trans (fetchExecute_overflow hdec hset hout), overflow_raises p.pc p⟩
  · exact (step_of_poll hrun hp).trans (fetchExecute_of_decode hdec (.inr hroom))

end Sys2Proof.Machine
